-- ==== Sys2Proof/Word.lean ====
section
/-! DEFINITION. The widths of the hardware (00_scope.md R5, R7, R8). Every value is an unsigned integer of a stated width. -/

namespace Sys2Proof

/-- A memory cell, a general register, a timer, an 8-bit immediate (R5). -/
abbrev Byte := BitVec 8

/-- An instruction word, `PC`, `I`, a call-stack entry, a key mask (R5, R48). -/
abbrev Word := BitVec 16

/-- The 12-bit address field of an instruction (R49). -/
abbrev Addr := BitVec 12

/-- A 4-bit field of an instruction word before it is given a meaning (R49). -/
abbrev Nibble := BitVec 4

/-- A register number, 0..15: every number a 4-bit field can form is valid (R16). -/
abbrev RegNum := Fin 16

/-- A key number, 0x0..0xF (R23). -/
abbrev KeyNum := Fin 16

end Sys2Proof
end

