-- ==== Sys2Proof/Syntax.lean ====
section
/-! DEFINITION. The instructions: one constructor per row of spec/opcode_table.json (30_encoding.md R52). A field that the encoding carries is kept even where the meaning ignores it (`addr` of `SYS`, `y` of the shifts; log entry 11), so that an instruction and its word determine each other. -/

namespace Sys2Proof

/-- The 35 opcode variants of R52, in the table's order. -/
inductive Instr where
  /-- `CLS`, 00E0 (R102). -/
  | cls
  /-- `RET`, 00EE (R69). -/
  | ret
  /-- `SYS addr`, 0NNN other than 00E0 and 00EE (R62). -/
  | sys (addr : Addr)
  /-- `JP addr`, 1NNN (R66). -/
  | jp (addr : Addr)
  /-- `CALL addr`, 2NNN (R68). -/
  | call (addr : Addr)
  /-- `SE Vx, byte`, 3XNN (R70). -/
  | seImm (x : RegNum) (nn : Byte)
  /-- `SNE Vx, byte`, 4XNN (R71). -/
  | sneImm (x : RegNum) (nn : Byte)
  /-- `SE Vx, Vy`, 5XY0 (R72). -/
  | seReg (x y : RegNum)
  /-- `LD Vx, byte`, 6XNN (R78). -/
  | ldImm (x : RegNum) (nn : Byte)
  /-- `ADD Vx, byte`, 7XNN (R79). -/
  | addImm (x : RegNum) (nn : Byte)
  /-- `LD Vx, Vy`, 8XY0 (R80). -/
  | ldReg (x y : RegNum)
  /-- `OR Vx, Vy`, 8XY1 (R81). -/
  | orReg (x y : RegNum)
  /-- `AND Vx, Vy`, 8XY2 (R82). -/
  | andReg (x y : RegNum)
  /-- `XOR Vx, Vy`, 8XY3 (R83). -/
  | xorReg (x y : RegNum)
  /-- `ADD Vx, Vy`, 8XY4 (R84). -/
  | addReg (x y : RegNum)
  /-- `SUB Vx, Vy`, 8XY5 (R85). -/
  | subReg (x y : RegNum)
  /-- `SHR Vx`, 8XY6; `y` is ignored (R86). -/
  | shr (x y : RegNum)
  /-- `SUBN Vx, Vy`, 8XY7 (R87). -/
  | subnReg (x y : RegNum)
  /-- `SHL Vx`, 8XYE; `y` is ignored (R88). -/
  | shl (x y : RegNum)
  /-- `SNE Vx, Vy`, 9XY0 (R73). -/
  | sneReg (x y : RegNum)
  /-- `LD I, addr`, ANNN (R94). -/
  | ldI (addr : Addr)
  /-- `JP V0, addr`, BNNN (R67). -/
  | jpV0 (addr : Addr)
  /-- `RND Vx, byte`, CXNN (R89). -/
  | rnd (x : RegNum) (nn : Byte)
  /-- `DRW Vx, Vy, n`, DXYN (R101). -/
  | drw (x y : RegNum) (n : Fin 16)
  /-- `SKP Vx`, EX9E (R74). -/
  | skp (x : RegNum)
  /-- `SKNP Vx`, EXA1 (R75). -/
  | sknp (x : RegNum)
  /-- `LD Vx, DT`, FX07 (R105). -/
  | ldVxDt (x : RegNum)
  /-- `LD Vx, K`, FX0A (R108). -/
  | ldVxK (x : RegNum)
  /-- `LD DT, Vx`, FX15 (R106). -/
  | ldDtVx (x : RegNum)
  /-- `LD ST, Vx`, FX18 (R107). -/
  | ldStVx (x : RegNum)
  /-- `ADD I, Vx`, FX1E (R95). -/
  | addI (x : RegNum)
  /-- `LD F, Vx`, FX29 (R96). -/
  | ldF (x : RegNum)
  /-- `LD B, Vx`, FX33 (R97). -/
  | ldB (x : RegNum)
  /-- `LD [I], Vx`, FX55 (R98). -/
  | storeRegs (x : RegNum)
  /-- `LD Vx, [I]`, FX65 (R99). -/
  | loadRegs (x : RegNum)
deriving DecidableEq, Repr

end Sys2Proof
end

