-- ==== Sys2Proof/WellFormed.lean ====
section
/-! DEFINITION. Which instruction terms stand for an instruction word (30_encoding.md R52, R53). Every operand is exactly as wide as its field, so the one thing left to check is the order of the table: the words 0x00E0 and 0x00EE select `CLS` and `RET`, never `SYS addr`. -/

namespace Sys2Proof

/-- An `addr` that `SYS addr` can have: 0x0E0 and 0x0EE belong to `CLS` and `RET` (R53, R62). -/
def sysAddrOk (addr : Addr) : Bool := addr != 0x0E0#12 && addr != 0x0EE#12

/-- The terms that some instruction word decodes to. -/
def Instr.wellFormed : Instr → Bool
  | .sys addr => sysAddrOk addr
  | .cls | .ret | .jp _ | .call _ | .seImm _ _ | .sneImm _ _ | .seReg _ _ | .ldImm _ _ | .addImm _ _ | .ldReg _ _
  | .orReg _ _ | .andReg _ _ | .xorReg _ _ | .addReg _ _ | .subReg _ _ | .shr _ _ | .subnReg _ _ | .shl _ _ | .sneReg _ _
  | .ldI _ | .jpV0 _ | .rnd _ _ | .drw _ _ _ | .skp _ | .sknp _ | .ldVxDt _ | .ldVxK _ | .ldDtVx _ | .ldStVx _ | .addI _
  | .ldF _ | .ldB _ | .storeRegs _ | .loadRegs _ => true

end Sys2Proof
end

