-- ==== Sys2Proof/Decode.lean ====
section
/-! DEFINITION. Decoding, total on any word and any bytes, and the encoder (30_encoding.md). The bit patterns are the spec's general knowledge (R52, D8, G1; PRESUMED, log entry 4). Families 5, 9, E and F are matched in full (D11). -/

namespace Sys2Proof

/-- Why a word or a sequence of bytes is no instruction (R54). The five families are the rows of R54's table. -/
inductive DecodeReject where
  /-- A word of family 5 whose `n` is not 0. -/
  | unrecognizedFamily5
  /-- A word of family 8 whose `n` is 0x8..0xD or 0xF. -/
  | unrecognizedFamily8
  /-- A word of family 9 whose `n` is not 0. -/
  | unrecognizedFamily9
  /-- A word of family E whose `nn` is neither 0x9E nor 0xA1. -/
  | unrecognizedFamilyE
  /-- A word of family F whose `nn` is none of the nine of R53. -/
  | unrecognizedFamilyF
  /-- Fewer than two bytes: an instruction is two bytes long (R48). A step never meets this: fetch always has two bytes. -/
  | truncated
deriving DecidableEq, Repr

/-! ## The six fields of a word (R49) -/

/-- The opcode family, bits 15..12. -/
def fieldFam (w : Word) : Nibble := w.extractLsb' 12 4

/-- The register number `x`, bits 11..8. -/
def fieldX (w : Word) : RegNum := (w.extractLsb' 8 4).toFin

/-- The register number `y`, bits 7..4. -/
def fieldY (w : Word) : RegNum := (w.extractLsb' 4 4).toFin

/-- The 4-bit immediate or sub-opcode `n`, bits 3..0. -/
def fieldN (w : Word) : Nibble := w.extractLsb' 0 4

/-- The 8-bit immediate or sub-opcode `nn`, bits 7..0. -/
def fieldNN (w : Word) : Byte := w.extractLsb' 0 8

/-- The 12-bit address `addr`, bits 11..0. -/
def fieldAddr (w : Word) : Addr := w.extractLsb' 0 12

/-! ## The two-level lookup (R53) -/

/-- Family 0: `CLS`, `RET`, and `SYS addr` for the rest (R53). -/
def decodeFamily0 (w : Word) : Instr :=
  if w = 0x00E0#16 then .cls else if w = 0x00EE#16 then .ret else .sys (fieldAddr w)

/-- Family 8: the register-pair forms, selected by `n` (R53). -/
def decodeFamily8 (w : Word) : Except DecodeReject Instr :=
  if fieldN w = 0x0#4 then .ok (.ldReg (fieldX w) (fieldY w))
  else if fieldN w = 0x1#4 then .ok (.orReg (fieldX w) (fieldY w))
  else if fieldN w = 0x2#4 then .ok (.andReg (fieldX w) (fieldY w))
  else if fieldN w = 0x3#4 then .ok (.xorReg (fieldX w) (fieldY w))
  else if fieldN w = 0x4#4 then .ok (.addReg (fieldX w) (fieldY w))
  else if fieldN w = 0x5#4 then .ok (.subReg (fieldX w) (fieldY w))
  else if fieldN w = 0x6#4 then .ok (.shr (fieldX w) (fieldY w))
  else if fieldN w = 0x7#4 then .ok (.subnReg (fieldX w) (fieldY w))
  else if fieldN w = 0xE#4 then .ok (.shl (fieldX w) (fieldY w))
  else .error .unrecognizedFamily8

/-- Family E: the key skips, selected by `nn` (R53). -/
def decodeFamilyE (w : Word) : Except DecodeReject Instr :=
  if fieldNN w = 0x9E#8 then .ok (.skp (fieldX w))
  else if fieldNN w = 0xA1#8 then .ok (.sknp (fieldX w))
  else .error .unrecognizedFamilyE

/-- Family F: timers, key-wait, index and memory forms, selected by `nn` (R53). -/
def decodeFamilyF (w : Word) : Except DecodeReject Instr :=
  if fieldNN w = 0x07#8 then .ok (.ldVxDt (fieldX w))
  else if fieldNN w = 0x0A#8 then .ok (.ldVxK (fieldX w))
  else if fieldNN w = 0x15#8 then .ok (.ldDtVx (fieldX w))
  else if fieldNN w = 0x18#8 then .ok (.ldStVx (fieldX w))
  else if fieldNN w = 0x1E#8 then .ok (.addI (fieldX w))
  else if fieldNN w = 0x29#8 then .ok (.ldF (fieldX w))
  else if fieldNN w = 0x33#8 then .ok (.ldB (fieldX w))
  else if fieldNN w = 0x55#8 then .ok (.storeRegs (fieldX w))
  else if fieldNN w = 0x65#8 then .ok (.loadRegs (fieldX w))
  else .error .unrecognizedFamilyF

/-- The instruction a word stands for, or the name under which it is refused (R53, R54). -/
def decode (w : Word) : Except DecodeReject Instr :=
  match (fieldFam w).toNat with
  | 0x0 => .ok (decodeFamily0 w)
  | 0x1 => .ok (.jp (fieldAddr w))
  | 0x2 => .ok (.call (fieldAddr w))
  | 0x3 => .ok (.seImm (fieldX w) (fieldNN w))
  | 0x4 => .ok (.sneImm (fieldX w) (fieldNN w))
  | 0x5 => if fieldN w = 0x0#4 then .ok (.seReg (fieldX w) (fieldY w)) else .error .unrecognizedFamily5
  | 0x6 => .ok (.ldImm (fieldX w) (fieldNN w))
  | 0x7 => .ok (.addImm (fieldX w) (fieldNN w))
  | 0x8 => decodeFamily8 w
  | 0x9 => if fieldN w = 0x0#4 then .ok (.sneReg (fieldX w) (fieldY w)) else .error .unrecognizedFamily9
  | 0xA => .ok (.ldI (fieldAddr w))
  | 0xB => .ok (.jpV0 (fieldAddr w))
  | 0xC => .ok (.rnd (fieldX w) (fieldNN w))
  | 0xD => .ok (.drw (fieldX w) (fieldY w) (fieldN w).toFin)
  | 0xE => decodeFamilyE w
  | _ => decodeFamilyF w

/-- Decode the first two bytes, high byte first (R36, R48), and give the rest back. -/
def decodeBytes : List Byte → Except DecodeReject (Instr × List Byte)
  | hi :: lo :: rest => (decode (hi ++ lo)).map fun i => (i, rest)
  | _ => .error .truncated

/-! ## The encoder -/

/-- A word of the layout `XYN` (R50). -/
def wordXYN (fam : Nibble) (x y : RegNum) (n : Nibble) : Word :=
  fam ++ (BitVec.ofFin x : Nibble) ++ (BitVec.ofFin y : Nibble) ++ n

/-- A word of the layouts `XNN` and `XSS` (R50). -/
def wordXNN (fam : Nibble) (x : RegNum) (nn : Byte) : Word := fam ++ (BitVec.ofFin x : Nibble) ++ nn

/-- A word of the layout `NNN` (R50). -/
def wordNNN (fam : Nibble) (addr : Addr) : Word := fam ++ addr

/-- The word of an instruction (R50, R52). -/
def encode : Instr → Word
  | .cls => 0x00E0#16
  | .ret => 0x00EE#16
  | .sys addr => wordNNN 0x0 addr
  | .jp addr => wordNNN 0x1 addr
  | .call addr => wordNNN 0x2 addr
  | .seImm x nn => wordXNN 0x3 x nn
  | .sneImm x nn => wordXNN 0x4 x nn
  | .seReg x y => wordXYN 0x5 x y 0x0
  | .ldImm x nn => wordXNN 0x6 x nn
  | .addImm x nn => wordXNN 0x7 x nn
  | .ldReg x y => wordXYN 0x8 x y 0x0
  | .orReg x y => wordXYN 0x8 x y 0x1
  | .andReg x y => wordXYN 0x8 x y 0x2
  | .xorReg x y => wordXYN 0x8 x y 0x3
  | .addReg x y => wordXYN 0x8 x y 0x4
  | .subReg x y => wordXYN 0x8 x y 0x5
  | .shr x y => wordXYN 0x8 x y 0x6
  | .subnReg x y => wordXYN 0x8 x y 0x7
  | .shl x y => wordXYN 0x8 x y 0xE
  | .sneReg x y => wordXYN 0x9 x y 0x0
  | .ldI addr => wordNNN 0xA addr
  | .jpV0 addr => wordNNN 0xB addr
  | .rnd x nn => wordXNN 0xC x nn
  | .drw x y n => wordXYN 0xD x y (BitVec.ofFin n)
  | .skp x => wordXNN 0xE x 0x9E
  | .sknp x => wordXNN 0xE x 0xA1
  | .ldVxDt x => wordXNN 0xF x 0x07
  | .ldVxK x => wordXNN 0xF x 0x0A
  | .ldDtVx x => wordXNN 0xF x 0x15
  | .ldStVx x => wordXNN 0xF x 0x18
  | .addI x => wordXNN 0xF x 0x1E
  | .ldF x => wordXNN 0xF x 0x29
  | .ldB x => wordXNN 0xF x 0x33
  | .storeRegs x => wordXNN 0xF x 0x55
  | .loadRegs x => wordXNN 0xF x 0x65

/-- The byte of a word that lies at the lower address: bits 15..8 (R36). -/
def highByte (w : Word) : Byte := w.extractLsb' 8 8

/-- The byte of a word that lies at the higher address: bits 7..0 (R36). -/
def lowByte (w : Word) : Byte := w.extractLsb' 0 8

/-- The two bytes of an instruction as memory holds them (R36, R48). -/
def encodeBytes (i : Instr) : List Byte := [highByte (encode i), lowByte (encode i)]

/-! ## The opcode map as data (R52) -/

/-- One row of the opcode map: a word `w` satisfies it when `w &&& mask = bits` (R52). -/
structure OpcodeRow where
  order : Nat
  mask : Word
  bits : Word
deriving DecidableEq, Repr

/-- Rows 1 to 12 of R52. -/
def opcodeRowsA : List OpcodeRow :=
  [⟨1, 0xFFFF#16, 0x00E0#16⟩, ⟨2, 0xFFFF#16, 0x00EE#16⟩, ⟨3, 0xF000#16, 0x0000#16⟩, ⟨4, 0xF000#16, 0x1000#16⟩, ⟨5, 0xF000#16, 0x2000#16⟩,
   ⟨6, 0xF000#16, 0x3000#16⟩, ⟨7, 0xF000#16, 0x4000#16⟩, ⟨8, 0xF00F#16, 0x5000#16⟩, ⟨9, 0xF000#16, 0x6000#16⟩, ⟨10, 0xF000#16, 0x7000#16⟩,
   ⟨11, 0xF00F#16, 0x8000#16⟩, ⟨12, 0xF00F#16, 0x8001#16⟩]

/-- Rows 13 to 24 of R52. -/
def opcodeRowsB : List OpcodeRow :=
  [⟨13, 0xF00F#16, 0x8002#16⟩, ⟨14, 0xF00F#16, 0x8003#16⟩, ⟨15, 0xF00F#16, 0x8004#16⟩, ⟨16, 0xF00F#16, 0x8005#16⟩, ⟨17, 0xF00F#16, 0x8006#16⟩,
   ⟨18, 0xF00F#16, 0x8007#16⟩, ⟨19, 0xF00F#16, 0x800E#16⟩, ⟨20, 0xF00F#16, 0x9000#16⟩, ⟨21, 0xF000#16, 0xA000#16⟩, ⟨22, 0xF000#16, 0xB000#16⟩,
   ⟨23, 0xF000#16, 0xC000#16⟩, ⟨24, 0xF000#16, 0xD000#16⟩]

/-- Rows 25 to 35 of R52. -/
def opcodeRowsC : List OpcodeRow :=
  [⟨25, 0xF0FF#16, 0xE09E#16⟩, ⟨26, 0xF0FF#16, 0xE0A1#16⟩, ⟨27, 0xF0FF#16, 0xF007#16⟩, ⟨28, 0xF0FF#16, 0xF00A#16⟩, ⟨29, 0xF0FF#16, 0xF015#16⟩,
   ⟨30, 0xF0FF#16, 0xF018#16⟩, ⟨31, 0xF0FF#16, 0xF01E#16⟩, ⟨32, 0xF0FF#16, 0xF029#16⟩, ⟨33, 0xF0FF#16, 0xF033#16⟩, ⟨34, 0xF0FF#16, 0xF055#16⟩,
   ⟨35, 0xF0FF#16, 0xF065#16⟩]

/-- The opcode map, in table order; the first row that a word satisfies wins (R52, R53). The decoder does not use it:
it is the spec's second account of the encodings, to hold the decoder against. -/
def opcodeMap : List OpcodeRow := opcodeRowsA ++ (opcodeRowsB ++ opcodeRowsC)

/-- The row of R52 an instruction belongs to. -/
def Instr.row : Instr → Nat
  | .cls => 1 | .ret => 2 | .sys _ => 3 | .jp _ => 4 | .call _ => 5 | .seImm _ _ => 6 | .sneImm _ _ => 7 | .seReg _ _ => 8
  | .ldImm _ _ => 9 | .addImm _ _ => 10 | .ldReg _ _ => 11 | .orReg _ _ => 12 | .andReg _ _ => 13 | .xorReg _ _ => 14
  | .addReg _ _ => 15 | .subReg _ _ => 16 | .shr _ _ => 17 | .subnReg _ _ => 18 | .shl _ _ => 19 | .sneReg _ _ => 20
  | .ldI _ => 21 | .jpV0 _ => 22 | .rnd _ _ => 23 | .drw _ _ _ => 24 | .skp _ => 25 | .sknp _ => 26 | .ldVxDt _ => 27
  | .ldVxK _ => 28 | .ldDtVx _ => 29 | .ldStVx _ => 30 | .addI _ => 31 | .ldF _ => 32 | .ldB _ => 33 | .storeRegs _ => 34
  | .loadRegs _ => 35

/-! ## The host's entry -/

/-- The instruction this decoder reads from a word numbered as spec/opcode_table.json numbers it. Every row has 16 bits
and bit 0 is the least significant bit of the one word (R7, R48), so the word is laid out as its high byte and then its
low byte (R36); bits at or above `nbits` are 0 (log entry 16). -/
def decodeTableWord (nbits w : Nat) : Option Instr :=
  let word : Word := BitVec.ofNat 16 (w % 2 ^ nbits)
  match decodeBytes [highByte word, lowByte word] with
  | .ok (i, _) => some i
  | .error _ => none

end Sys2Proof
end

