-- ==== Sys2Proof/Config.lean ====
section
/-! DEFINITION. What is fixed for one machine: the parameters of 00_scope.md R5 that are used as numbers, the open parameters of R6, and the free value that stands for the outside source of random bytes (R14, R117). -/

namespace Sys2Proof

/-- Where a program image is installed and where execution starts (R5, R29, R114). -/
abbrev Config.loadAddress : Nat := 0x200

/-- The longest program image, 4096 - 0x200 bytes (R5, R114). -/
abbrev Config.maxImage : Nat := 3584

/-- Which of its 255 allowed values the open parameter `DT_RESET` has (R6, D20): nothing is known of it.
DESIGN CHOICE (log entry 1), safe. -/
opaque Config.dtResetChoice : Fin 255

/-- Which of its 255 allowed values the open parameter `ST_RESET` has (R6, D20): nothing is known of it.
DESIGN CHOICE (log entry 1), safe. -/
opaque Config.stResetChoice : Fin 255

/-- `DT_RESET`: some value in 1..255 (R6). -/
def Config.dtReset : Byte := BitVec.ofNat 8 (Config.dtResetChoice.val + 1)

/-- `ST_RESET`: some value in 1..255 (R6). -/
def Config.stReset : Byte := BitVec.ofNat 8 (Config.stResetChoice.val + 1)

/-- The bytes the outside random source supplies, in the order they are drawn (R14, R117, D21): nothing is known of them.
DESIGN CHOICE (log entry 3), safe: whatever is proved holds for every sequence of draws. -/
opaque Config.rnd : Nat → Byte

end Sys2Proof
end

