-- ==== Sys2Proof/Machine/State.lean ====
section
/-! DEFINITION. The state of the block, the reasons a step can stop, and the state after reset (10_state.md). -/

namespace Sys2Proof.Machine

/-- The fault latch `FAULT` (R25): `none` while the core runs, or the cause of the fatal fault that stopped it.
The complete list of causes is R122. -/
inductive FaultLatch where
  | none
  | stackOverflow
  | stackUnderflow
deriving DecidableEq, Repr

/-- The reasons for which a step of the model stops with a fault: there are none.
The two fatal faults of the spec have an entry the spec describes (R124) and a state afterwards (R125), so taking one is a
next state with the latch set (`raiseFault`), and a step of a faulted machine is a next state equal to it. Nobody raises a
`Fault`; that is safe, since no run is cut short by it. -/
inductive Fault
deriving DecidableEq, Repr

/-- The reasons for which the model gives an instruction no meaning. -/
inductive Refusal where
  /-- Raised by an arm of `exec` whose instruction has no meaning yet. No arm raises it: all 35 have their meaning.
  It would be safe: the model stops where the hardware goes on. -/
  | notModelled (mnemonic : String)
deriving DecidableEq, Repr

/-- The 4096 bytes of memory (R24) as plain data: the cells that differ from what `MEM` holds after reset, as pairs of
address and byte. `Memory.wf` is its canonical form; `Memory.background` says what an unlisted address reads as. -/
abbrev Memory := List Host.Cell

/-- Every piece of state the spec gives the machine (R15), and `draws`, which is the model's own. -/
structure State where
  /-- `V[0]`..`V[15]` (R16); `VF` is `V[15]` (R17). -/
  v : Vector Byte 16
  /-- The program counter (R18). -/
  pc : Word
  /-- `STACK[0]`..`STACK[15]` (R19); the architectural entries are those below `sp`. -/
  stack : Vector Word 16
  /-- `SP`, the number of entries on the call stack, 0..16 (R19). -/
  sp : Fin 17
  /-- The index register `I` (R20). -/
  i : Word
  /-- The delay timer `DT` (R21). -/
  dt : Byte
  /-- The sound timer `ST` (R21). -/
  st : Byte
  /-- The framebuffer `FB`: 32 rows of 64 pixels, `true` is on (R22). -/
  fb : Vector (Vector Bool 64) 32
  /-- `KEYS[0]`..`KEYS[15]`: `true` is held (R23). -/
  keys : Vector Bool 16
  /-- `MEM` (R24). -/
  mem : Memory
  /-- The fault latch `FAULT` (R25). -/
  fault : FaultLatch
  /-- The model's own: how many bytes have been drawn from the outside random source so far (R14, R117; log entry 3). -/
  draws : Nat
deriving DecidableEq, Repr

/-- The state after `reset()` (R29, R113, R136) on a machine whose open parameters `DT_RESET` and `ST_RESET` (R6) are the
two arguments. Memory lists nothing: it reads as the font table and zeros (R29, R30). The zeros of `V`, `I`, `KEYS` and of
the stack cells are the spec's own choice (R29, D19; log entry 2); `draws` is the model's (log entry 3). -/
def State.resetWith (dtReset stReset : Byte) : State where
  v := Vector.replicate 16 0
  pc := BitVec.ofNat 16 Config.loadAddress
  stack := Vector.replicate 16 0
  sp := 0
  i := 0
  dt := dtReset
  st := stReset
  fb := Vector.replicate 32 (Vector.replicate 64 false)
  keys := Vector.replicate 16 false
  mem := []
  fault := .none
  draws := 0

/-- The machine right after reset (R29): its open parameters are the constants of Config (R6; log entry 1). -/
def State.reset : State := State.resetWith Config.dtReset Config.stReset

end Sys2Proof.Machine
end

