-- ==== Sys2Proof/Machine/Ops.lean ====
section
/-! DEFINITION. The named operations over memory, registers, stack, framebuffer, keys and the fault latch. Every meaning reads and writes state through these. -/

namespace Sys2Proof.Machine

/-! ## Memory (20_memory.md) -/

/-- The sixteen glyphs of the font, five bytes each, as the table of R30 gives them.
The bytes are the spec's general knowledge (D18, G2; PRESUMED, log entry 5). -/
def fontGlyphs : List (List Byte) :=
  [[0xF0, 0x90, 0x90, 0x90, 0xF0],
   [0x20, 0x60, 0x20, 0x20, 0x70],
   [0xF0, 0x10, 0xF0, 0x80, 0xF0],
   [0xF0, 0x10, 0xF0, 0x10, 0xF0],
   [0x90, 0x90, 0xF0, 0x10, 0x10],
   [0xF0, 0x80, 0xF0, 0x10, 0xF0],
   [0xF0, 0x80, 0xF0, 0x90, 0xF0],
   [0xF0, 0x10, 0x20, 0x40, 0x40],
   [0xF0, 0x90, 0xF0, 0x90, 0xF0],
   [0xF0, 0x90, 0xF0, 0x10, 0xF0],
   [0xF0, 0x90, 0xF0, 0x90, 0x90],
   [0xE0, 0x90, 0xE0, 0x90, 0xE0],
   [0xF0, 0x80, 0x80, 0x80, 0xF0],
   [0xE0, 0x90, 0x90, 0x90, 0xE0],
   [0xF0, 0x80, 0xF0, 0x80, 0xF0],
   [0xF0, 0x80, 0xF0, 0x80, 0x80]]

/-- The font table, the 80 bytes at 0x000..0x04F after reset (R30). -/
def fontTable : List Byte := fontGlyphs.flatten

/-- What an address that memory does not list reads as: the contents after reset, the font table and zeros (R29, R30, R41). -/
def Memory.background (a : Nat) : Byte := (fontTable[a]?).getD 0

/-- The canonical form of memory: addresses strictly rising, all of them inside the 4096 bytes, and no entry equal to what
its address reads as when unlisted. Equal memories are then equal lists. -/
abbrev Memory.wf (m : Memory) : Prop :=
  m.Pairwise (fun c d => c.1 < d.1) ∧ ∀ c ∈ m, c.1 < 4096 ∧ c.2 ≠ Memory.background c.1

/-- The byte of cell `a` (R24). -/
def Memory.read : Memory → Nat → Byte
  | [], a => Memory.background a
  | (b, x) :: rest, a => if a = b then x else Memory.read rest a

/-- List `x` at address `a`, in order, in place of what was listed there. -/
def Memory.insert : Memory → Nat → Byte → Memory
  | [], a, x => [(a, x)]
  | (b, y) :: rest, a, x =>
    if a < b then (a, x) :: (b, y) :: rest
    else if a = b then (a, x) :: rest
    else (b, y) :: Memory.insert rest a x

/-- List nothing at address `a`. -/
def Memory.erase (m : Memory) (a : Nat) : Memory := m.filter fun c => c.1 != a

/-- Write `x` to cell `a` (R24), keeping the canonical form. -/
def Memory.write (m : Memory) (a : Nat) (x : Byte) : Memory :=
  if x = Memory.background a then Memory.erase m a else Memory.insert m a x

/-- The address policy: every byte address is reduced modulo 4096 before it indexes `MEM`, so no access fails
(R10, R35; the spec's choice D1, log entry 6). -/
def reduceAddr (a : Nat) : Nat := a % 4096

/-- `MemRead(a, 1)` (R10). -/
def State.memRead (s : State) (a : Nat) : Byte := Memory.read s.mem (reduceAddr a)

/-- `MemRead(a, 2)`: two single-byte reads, high byte first, each reduced by itself (R10, R34, R36). -/
def State.memRead2 (s : State) (a : Nat) : Word := s.memRead a ++ s.memRead (a + 1)

/-- `MemWrite(a, 1, x)` (R10). -/
def State.memWrite (s : State) (a : Nat) (x : Byte) : State :=
  { s with mem := Memory.write s.mem (reduceAddr a) x }

/-! ## General registers (R16, R17) -/

/-- `VF`, the flag register, is the ordinary register 15 (R17). -/
abbrev vf : RegNum := 15

/-- `V[r]`. -/
def State.reg (s : State) (r : RegNum) : Byte := s.v[r]

/-- `V[r] <- x`. -/
def State.setReg (s : State) (r : RegNum) (x : Byte) : State := { s with v := s.v.set r x }

/-! ## `PC`, `I`, the timers -/

/-- `PC <- a` (R18). -/
def State.setPc (s : State) (a : Word) : State := { s with pc := a }

/-- `I <- a` (R20). -/
def State.setI (s : State) (a : Word) : State := { s with i := a }

/-- `DT <- x` (R21). -/
def State.setDt (s : State) (x : Byte) : State := { s with dt := x }

/-- `ST <- x` (R21). -/
def State.setSt (s : State) (x : Byte) : State := { s with st := x }

/-- `PC <- (PC + 2) mod 65536`: fetch does it once (R59), a skip whose condition holds once more (R70). -/
def State.advancePc (s : State) : State := s.setPc (s.pc + 2)

/-- `PC <- (PC - 2) mod 65536`: undo the advance of this step's fetch (R108, R124). -/
def State.rewindPc (s : State) : State := s.setPc (s.pc - 2)

/-- A skip instruction: a further 2 when its condition holds, whatever the skipped word is (R65, R70). -/
def State.skipIf (s : State) (condition : Bool) : State := if condition then s.advancePc else s

/-! ## The call stack (R19) -/

/-- `STACK[k]`. -/
def State.stackCell (s : State) (k : Fin 16) : Word := s.stack[k]

/-- `STACK[SP] <- a; SP <- SP + 1` where there is room, nothing on a full stack (R68 checks for room first). -/
def State.push (s : State) (a : Word) : State :=
  if room : s.sp.val < 16 then
    { s with stack := s.stack.set s.sp.val a, sp := ⟨s.sp.val + 1, Nat.succ_lt_succ room⟩ }
  else s

/-- `STACK[SP - 1]`, the last entry; read only where `SP` is not 0 (R69 checks first). -/
def State.top (s : State) : Word := s.stackCell (Fin.ofNat 16 (s.sp.val - 1))

/-- `SP <- SP - 1`; the popped cell keeps its bits (R69; log entry 12). -/
def State.pop (s : State) : State := { s with sp := ⟨s.sp.val - 1, Nat.lt_of_le_of_lt (Nat.sub_le _ 1) s.sp.isLt⟩ }

/-! ## The framebuffer (R22) -/

/-- `FB[r][c]`. -/
def State.pixel (s : State) (r : Fin 32) (c : Fin 64) : Bool := s.fb[r][c]

/-- `FB[r][c] <- on`. -/
def State.setPixel (s : State) (r : Fin 32) (c : Fin 64) (on : Bool) : State :=
  { s with fb := s.fb.set r (s.fb[r].set c on) }

/-- `FB[r][c] <- 0` for every `r` and `c` (R102). -/
def State.clearDisplay (s : State) : State := { s with fb := Vector.replicate 32 (Vector.replicate 64 false) }

/-! ## The keys (R23) -/

/-- `KEYS[k] = 1`. -/
def State.keyHeld (s : State) (k : KeyNum) : Bool := s.keys[k]

/-- The least `k` with `KEYS[k] = 1`, if any key is held (R108). -/
def State.lowestHeldKey (s : State) : Option KeyNum := (List.finRange 16).find? fun k => s.keyHeld k

/-! ## The random source (R14, R117) -/

/-- `Rnd()`: the byte the next executed `RND` gets (log entry 3). -/
def State.nextDraw (s : State) : Byte := Config.rnd s.draws

/-- That byte has been consumed. -/
def State.consumeDraw (s : State) : State := { s with draws := s.draws + 1 }

/-! ## Faults (60_exceptions.md) -/

/-- `FAULT <- c` (R25). -/
def State.setFault (s : State) (c : FaultLatch) : State := { s with fault := c }

/-- Whether `FAULT` is not `None`: the machine executes nothing more until `reset()` (R125). -/
def State.faulted (s : State) : Bool := s.fault != .none

/-- Taking a fault: every write of the step is undone, the advance of `PC` included, and `FAULT <- c` (R11, R124). Both
faulting rules check before they write (R68, R69), so `PC` is all there is to undo. There is no vector, no handler, no
saved register and no mode (R124). There is no return from a fault beside it (R126): only `reset()` leaves the faulted
state. The policy is the spec's choice (D2, D3, D4; log entry 7). -/
def raiseFault (c : FaultLatch) (s : State) : State := s.rewindPc.setFault c

/-- The 2-bit code of the latch at the `fault` output (R25, R112). -/
def FaultLatch.code : FaultLatch → BitVec 2
  | .none => 0
  | .stackOverflow => 1
  | .stackUnderflow => 2

/-! ## Ascending loops -/

/-- `for k = 0, 1, ..., n - 1 in ascending order: s <- body k s`. Within the body a read sees the writes of the turns
before it (R9, R98, R99, R101). -/
def forAscending : Nat → (Nat → State → State) → State → State
  | 0, _, s => s
  | n + 1, body, s => body n (forAscending n body s)

end Sys2Proof.Machine
end

