-- ==== Sys2Proof/Machine/Operands.lean ====
section
/-! DEFINITION. How an operand is formed from an instruction's fields and the state (30_encoding.md R51, 43_index_memory.md R93, 41_control_flow.md R74, 44_display.md R100 and R101). -/

namespace Sys2Proof.Machine

/-- `zext_16(addr)`, the target of `JP`, `CALL` and `LD I` (R51). -/
def addrOperand (addr : Addr) : Word := addr.zeroExtend 16

/-- `zext_16(v)`: a register value where 16 bits are computed with (R51, R67, R95). -/
def wordOfByte (b : Byte) : Word := b.zeroExtend 16

/-- The target of `JP V0, addr`: `(V[0] + addr) mod 65536`, always of `V[0]`, not masked to 12 bits
(R67; the spec's choice D30, log entry 9). -/
def jumpV0Target (s : State) (addr : Addr) : Word := wordOfByte (s.reg 0) + addrOperand addr

/-- The data address `I + k` before it is reduced (R93). -/
def indexAddr (s : State) (k : Nat) : Nat := s.i.toNat + k

/-- The key that `SKP` and `SKNP` test: `V[x] mod 16` (R74, R75; the spec's general knowledge and choice, G7, D16;
PRESUMED, log entry 10). -/
def keyOperand (s : State) (x : RegNum) : KeyNum := Fin.ofNat 16 (s.reg x).toNat

/-- The row a sprite starts at, and each row below it: reduced modulo 32 (R101). -/
def screenRow (y : Nat) : Fin 32 := Fin.ofNat 32 y

/-- The column a sprite starts at, and each column right of it: reduced modulo 64 (R101). -/
def screenColumn (x : Nat) : Fin 64 := Fin.ofNat 64 x

/-- Pixel `bit` of a sprite row, 0 the leftmost: bit `7 - bit` of its byte (R100; the spec's general knowledge, D14, G5;
PRESUMED, log entry 10). -/
def spriteBit (row : Byte) (bit : Nat) : Bool := row.getLsbD (7 - bit)

/-- `V[x] * 5`, the address of a glyph (R96): the whole byte, not its low nibble. -/
def glyphAddr (digit : Byte) : Word := BitVec.ofNat 16 (digit.toNat * 5)

/-- The hundreds digit of a byte (R97). -/
def bcdHundreds (b : Byte) : Byte := BitVec.ofNat 8 (b.toNat / 100)

/-- The tens digit of a byte (R97). -/
def bcdTens (b : Byte) : Byte := BitVec.ofNat 8 (b.toNat / 10 % 10)

/-- The units digit of a byte (R97). -/
def bcdUnits (b : Byte) : Byte := BitVec.ofNat 8 (b.toNat % 10)

end Sys2Proof.Machine
end

