-- ==== Sys2Proof/Machine/Control.lean ====
section
/-! DEFINITION. The step cycle's no-ops (40_step_cycle.md) and the control-flow instructions (41_control_flow.md). A meaning is given the state in which its rule starts: `PC` is already advanced past the instruction (R12, R59). -/

namespace Sys2Proof.Machine

abbrev Result := Host.Outcome State Fault Refusal

/-- A word that is no instruction: nothing happens beyond the advance of `PC` (R61). -/
def execUnrecognized (s : State) : Result := .next s

/-- `SYS addr`: nothing happens beyond the advance of `PC` (R62; the spec's choice D10, log entry 13). -/
def execSys (_addr : Addr) (s : State) : Result := .next s

/-- `JP addr` (R66). -/
def execJp (addr : Addr) (s : State) : Result := .next (s.setPc (addrOperand addr))

/-- `JP V0, addr` (R67). -/
def execJpV0 (addr : Addr) (s : State) : Result := .next (s.setPc (jumpV0Target s addr))

/-- `CALL addr`: the pushed value is the address of the next instruction; a full stack is the fault (R68). -/
def execCall (addr : Addr) (s : State) : Result :=
  if s.sp.val = 16 then .next (raiseFault .stackOverflow s)
  else .next ((s.push s.pc).setPc (addrOperand addr))

/-- `RET`: an empty stack is the fault (R69). -/
def execRet (s : State) : Result :=
  if s.sp.val = 0 then .next (raiseFault .stackUnderflow s)
  else .next (s.pop.setPc s.top)

/-- `SE Vx, byte` (R70). -/
def execSeImm (x : RegNum) (nn : Byte) (s : State) : Result := .next (s.skipIf (s.reg x == nn))

/-- `SNE Vx, byte` (R71). -/
def execSneImm (x : RegNum) (nn : Byte) (s : State) : Result := .next (s.skipIf (s.reg x != nn))

/-- `SE Vx, Vy` (R72). -/
def execSeReg (x y : RegNum) (s : State) : Result := .next (s.skipIf (s.reg x == s.reg y))

/-- `SNE Vx, Vy` (R73). -/
def execSneReg (x y : RegNum) (s : State) : Result := .next (s.skipIf (s.reg x != s.reg y))

/-- `SKP Vx` (R74). -/
def execSkp (x : RegNum) (s : State) : Result := .next (s.skipIf (s.keyHeld (keyOperand s x)))

/-- `SKNP Vx` (R75). -/
def execSknp (x : RegNum) (s : State) : Result := .next (s.skipIf (!s.keyHeld (keyOperand s x)))

end Sys2Proof.Machine
end

