-- ==== Sys2Proof/Machine/Flags.lean ====
section
/-! DEFINITION. What is written to `VF` as a flag, and the order in which it is written (10_state.md R17, 42_alu.md R77 and R90). -/

namespace Sys2Proof.Machine

/-- A flag as the byte that `VF` gets: 0 or 1 (R17). -/
def flagByte (condition : Bool) : Byte := if condition then 1 else 0

/-- The carry out of bit 7: `a + b > 255` (R84, R90). -/
def carryFlag (a b : Byte) : Byte := flagByte (a.toNat + b.toNat > 255)

/-- The subtract flag of `a - b`: the strict `a > b`, so 0 for equal operands (R85, R90, C5). -/
def greaterFlag (a b : Byte) : Byte := flagByte (a.toNat > b.toNat)

/-- The bit that `SHR` shifts out: bit 0 (R86). -/
def shiftRightFlag (a : Byte) : Byte := flagByte (a.getLsbD 0)

/-- The bit that `SHL` shifts out: bit 7 (R88). -/
def shiftLeftFlag (a : Byte) : Byte := flagByte (a.getLsbD 7)

/-- Write the flag, then the result (R77). Where the destination is `VF` itself, the result stays (R91; the spec's choice
D12, log entry 8). -/
def setFlagThenResult (x : RegNum) (flag result : Byte) (s : State) : State := (s.setReg vf flag).setReg x result

end Sys2Proof.Machine
end

