-- ==== Sys2Proof/Machine/Alu.lean ====
section
/-! DEFINITION. Register arithmetic, logic, shift and random (42_alu.md). Both operands are read, then the result is computed, then the flag and last the result are written (R77). None of these touches `PC` beyond its advance. -/

namespace Sys2Proof.Machine

/-- `LD Vx, byte` (R78). -/
def execLdImm (x : RegNum) (nn : Byte) (s : State) : Result := .next (s.setReg x nn)

/-- `ADD Vx, byte`: wrapping, no flag (R79). -/
def execAddImm (x : RegNum) (nn : Byte) (s : State) : Result := .next (s.setReg x (s.reg x + nn))

/-- `LD Vx, Vy` (R80). -/
def execLdReg (x y : RegNum) (s : State) : Result := .next (s.setReg x (s.reg y))

/-- `OR Vx, Vy`: no flag (R81). -/
def execOrReg (x y : RegNum) (s : State) : Result := .next (s.setReg x (s.reg x ||| s.reg y))

/-- `AND Vx, Vy`: no flag (R82). -/
def execAndReg (x y : RegNum) (s : State) : Result := .next (s.setReg x (s.reg x &&& s.reg y))

/-- `XOR Vx, Vy`: no flag (R83). -/
def execXorReg (x y : RegNum) (s : State) : Result := .next (s.setReg x (s.reg x ^^^ s.reg y))

/-- `ADD Vx, Vy`: the flag is the carry (R84). -/
def execAddReg (x y : RegNum) (s : State) : Result :=
  .next (setFlagThenResult x (carryFlag (s.reg x) (s.reg y)) (s.reg x + s.reg y) s)

/-- `SUB Vx, Vy`: the flag is `V[x] > V[y]` (R85). -/
def execSubReg (x y : RegNum) (s : State) : Result :=
  .next (setFlagThenResult x (greaterFlag (s.reg x) (s.reg y)) (s.reg x - s.reg y) s)

/-- `SHR Vx`: `y` is ignored (R86). -/
def execShr (x _y : RegNum) (s : State) : Result :=
  .next (setFlagThenResult x (shiftRightFlag (s.reg x)) (s.reg x >>> 1) s)

/-- `SUBN Vx, Vy`: `V[y] - V[x]`, the flag is `V[y] > V[x]` (R87, C2). -/
def execSubnReg (x y : RegNum) (s : State) : Result :=
  .next (setFlagThenResult x (greaterFlag (s.reg y) (s.reg x)) (s.reg y - s.reg x) s)

/-- `SHL Vx`: `y` is ignored (R88). -/
def execShl (x _y : RegNum) (s : State) : Result :=
  .next (setFlagThenResult x (shiftLeftFlag (s.reg x)) (s.reg x <<< 1) s)

/-- The effect of `RND Vx, byte` when the draw is `r` (R89). -/
def randomInto (r : Byte) (x : RegNum) (nn : Byte) (s : State) : State := s.setReg x (r &&& nn)

/-- `RND Vx, byte`: exactly one draw is consumed (R89; log entry 3). -/
def execRnd (x : RegNum) (nn : Byte) (s : State) : Result := .next (randomInto s.nextDraw x nn s.consumeDraw)

end Sys2Proof.Machine
end

