-- ==== Sys2Proof/Machine/Display.lean ====
section
/-! DEFINITION. Sprite draw with collision, and clear (44_display.md). -/

namespace Sys2Proof.Machine

/-- `CLS`: `VF` is unchanged (R102; the spec's general knowledge, D9, G3; PRESUMED, log entry 17). -/
def execCls (s : State) : Result := .next s.clearDisplay

/-- Toggle one pixel if the sprite's bit is 1, and set `VF` if that turns an on pixel off (R101). -/
def drawPixel (r : Fin 32) (c : Fin 64) (bit : Bool) (s : State) : State :=
  (if bit && s.pixel r c then s.setReg vf 1 else s).setPixel r c (s.pixel r c ^^ bit)

/-- One row of the sprite: its eight pixels from column `sx`, each column reduced modulo 64 (R101). -/
def drawRow (sx : Nat) (r : Fin 32) (row : Byte) (s : State) : State :=
  forAscending 8 (fun bit t => drawPixel r (screenColumn (sx + bit)) (spriteBit row bit) t) s

/-- The `n` rows of the sprite at `base`, from screen row `sy` downward, each row reduced modulo 32 (R101). -/
def drawSprite (sx sy base n : Nat) (s : State) : State :=
  forAscending n (fun row t => drawRow sx (screenRow (sy + row)) (t.memRead (base + row)) t) s

/-- `DRW Vx, Vy, n`: the operands are read, then `VF <- 0`, then the rows are drawn (R101; order D13, `n = 0` D24,
log entry 8). -/
def execDrw (x y : RegNum) (n : Fin 16) (s : State) : Result :=
  .next (drawSprite ((s.reg x).toNat % 64) ((s.reg y).toNat % 32) s.i.toNat n.val (s.setReg vf 0))

end Sys2Proof.Machine
end

