-- ==== Sys2Proof/Machine/IndexMemory.lean ====
section
/-! DEFINITION. Index register, font address, BCD and register-block transfers (43_index_memory.md). The transfers leave `I` unchanged (R93; the spec's choice D22, log entry 18). -/

namespace Sys2Proof.Machine

/-- `LD I, addr` (R94). -/
def execLdI (addr : Addr) (s : State) : Result := .next (s.setI (addrOperand addr))

/-- `ADD I, Vx`: 16-bit wrapping, no flag (R95). -/
def execAddI (x : RegNum) (s : State) : Result := .next (s.setI (s.i + wordOfByte (s.reg x)))

/-- `LD F, Vx` (R96). -/
def execLdF (x : RegNum) (s : State) : Result := .next (s.setI (glyphAddr (s.reg x)))

/-- `LD B, Vx`: hundreds, tens and units at `I`, `I + 1`, `I + 2` (R97). -/
def execLdB (x : RegNum) (s : State) : Result :=
  .next (((s.memWrite (indexAddr s 0) (bcdHundreds (s.reg x))).memWrite (indexAddr s 1) (bcdTens (s.reg x))).memWrite
    (indexAddr s 2) (bcdUnits (s.reg x)))

/-- One turn of `LD [I], Vx`: `MemWrite(I + k, 1, V[k])` (R98). -/
def storeOneReg (k : Nat) (s : State) : State := s.memWrite (indexAddr s k) (s.reg (Fin.ofNat 16 k))

/-- `LD [I], Vx`: registers 0 to `x` inclusive, ascending (R98, R141). -/
def execStoreRegs (x : RegNum) (s : State) : Result := .next (forAscending (x.val + 1) storeOneReg s)

/-- One turn of `LD Vx, [I]`: `V[k] <- MemRead(I + k, 1)` (R99). -/
def loadOneReg (k : Nat) (s : State) : State := s.setReg (Fin.ofNat 16 k) (s.memRead (indexAddr s k))

/-- `LD Vx, [I]`: registers 0 to `x` inclusive, ascending (R99, R141). -/
def execLoadRegs (x : RegNum) (s : State) : Result := .next (forAscending (x.val + 1) loadOneReg s)

end Sys2Proof.Machine
end

