-- ==== Sys2Proof/Machine/TimersKeys.lean ====
section
/-! DEFINITION. The timer instructions and key-wait (45_timers_keywait.md). The three timer instructions are the spec's general knowledge (D9, G3; PRESUMED, log entry 17). No instruction decrements a timer (R64, R109). -/

namespace Sys2Proof.Machine

/-- `LD Vx, DT` (R105). -/
def execLdVxDt (x : RegNum) (s : State) : Result := .next (s.setReg x s.dt)

/-- `LD DT, Vx` (R106). -/
def execLdDtVx (x : RegNum) (s : State) : Result := .next (s.setDt (s.reg x))

/-- `LD ST, Vx` (R107). -/
def execLdStVx (x : RegNum) (s : State) : Result := .next (s.setSt (s.reg x))

/-- `LD Vx, K`: with no key held the same instruction is fetched again, else the least held key is stored (R108). -/
def execLdVxK (x : RegNum) (s : State) : Result :=
  match s.lowestHeldKey with
  | none => .next s.rewindPc
  | some k => .next (s.setReg x (BitVec.ofNat 8 k.val))

end Sys2Proof.Machine
end

