-- ==== Sys2Proof/Machine/Fetch.lean ====
section
/-! DEFINITION. Fetching an instruction, and the step of a machine that executes nothing (40_step_cycle.md R59, 60_exceptions.md R125). -/

namespace Sys2Proof.Machine

/-- `MemRead(PC, 2)`: the word the next step executes, its high byte at `PC` (R36, R59). -/
def fetchWord (s : State) : Word := s.memRead2 s.pc.toNat

/-- What the decoder makes of that word. -/
def fetched (s : State) : Except DecodeReject Instr := decode (fetchWord s)

/-- `step()` while `FAULT` is not `None`: nothing changes (R59, R125; the spec's choice D4, log entry 7). -/
def stepFaulted (s : State) : Result := .next s

/-- Store the two bytes of a word where the next step fetches, high byte first (R36). -/
def placeWord (s : State) (w : Word) : State :=
  (s.memWrite s.pc.toNat (highByte w)).memWrite (s.pc.toNat + 1) (lowByte w)

end Sys2Proof.Machine
end

