-- ==== Sys2Proof/Machine/Step.lean ====
section
/-! DEFINITION. One step: fetch, advance `PC`, decode, execute (40_step_cycle.md R59). -/

namespace Sys2Proof.Machine

/-- `step()` (R59). A word that is no instruction executes the no-op of R61. -/
def step (s : State) : Host.Outcome State Fault Refusal :=
  if s.faulted then stepFaulted s
  else
    match fetched s with
    | .ok i => exec i s.advancePc
    | .error _ => execUnrecognized s.advancePc

/-- `s` with the instruction word `w` of spec/opcode_table.json, `nbits` bits long, stored at `PC`, where the next step
fetches it. Nothing else changes; the bits at or above `nbits` are 0 (log entry 16). -/
def State.withFetchWord (s : State) (nbits w : Nat) : State := placeWord s (BitVec.ofNat 16 (w % 2 ^ nbits))

end Sys2Proof.Machine
end

