-- ==== Sys2Proof/Machine/HostOps.lean ====
section
/-! DEFINITION. What the host can do to the block besides `step()` (46_host_operations.md, 45_timers_keywait.md R104), and runs as sequences of operations (R111). -/

namespace Sys2Proof.Machine

/-- A timer one tick later: decremented, and 0 stays 0 (R104). -/
def timerTick (t : Byte) : Byte := if t.toNat > 0 then t - 1 else t

/-- `tick_timers()` (R104). -/
def tickTimers (s : State) : State :=
  if s.faulted then s else (s.setDt (timerTick s.dt)).setSt (timerTick s.st)

/-- `set_keys(mask)`: `KEYS[k] <- mask[k]` for all sixteen keys (R115; the bit order is the spec's choice D17, log entry 19). -/
def setKeys (mask : Word) (s : State) : State :=
  if s.faulted then s else { s with keys := Vector.ofFn fun k : Fin 16 => mask.getLsbD k.val }

/-- `MEM[a + k] <- bytes[k]` for every `k`, ascending (R114). -/
def installFrom (a : Nat) : List Byte → State → State
  | [], s => s
  | b :: bytes, s => installFrom (a + 1) bytes (s.memWrite a b)

/-- The result of `load_program` (R112, R114). -/
inductive LoadStatus where
  | ok
  | loadTooLarge
deriving DecidableEq, Repr

/-- The status that `load_program(bytes)` returns (R114). -/
def loadStatus (bytes : List Byte) (s : State) : LoadStatus :=
  if s.faulted then .ok else if bytes.length > Config.maxImage then .loadTooLarge else .ok

/-- The state that `load_program(bytes)` leaves (R114). -/
def loadProgram (bytes : List Byte) (s : State) : State :=
  if s.faulted then s else if bytes.length > Config.maxImage then s else installFrom Config.loadAddress bytes s

/-- `reset()`, in any state (R113, R126). The count of draws is no state of the block and goes on, so that the outside
source does not repeat itself (log entry 3). -/
def hostReset (s : State) : State := { State.reset with draws := s.draws }

/-- `sound_on = (ST ≠ 0)` (R110). -/
def soundOn (s : State) : Bool := s.st != 0

/-- What the host can read out between two operations (R112, R116). -/
structure ReadOut where
  fb : Vector (Vector Bool 64) 32
  regs : Vector Byte 16
  dt : Byte
  st : Byte
  soundOn : Bool
  fault : BitVec 2
deriving DecidableEq, Repr

/-- The read-outs: they see the state and change nothing (R116). -/
def readOut (s : State) : ReadOut :=
  { fb := s.fb, regs := s.v, dt := s.dt, st := s.st, soundOn := soundOn s, fault := s.fault.code }

/-- The optional diagnostic of a step: the word it fetches; a faulted machine fetches none (R63, R112). -/
def lastWord (s : State) : Option Word := if s.faulted then none else some (fetchWord s)

/-- `Step(r)`: a step whose random source supplies `r`, which only a step that executes `RND` uses (R14, R111, R117).
`step` is this step with the draw `State.nextDraw` (log entry 3). -/
def stepWith (r : Byte) (s : State) : Result :=
  if s.faulted then stepFaulted s
  else
    match fetched s with
    | .ok (.rnd x nn) => .next (randomInto r x nn s.advancePc.consumeDraw)
    | _ => Machine.step s

/-- The operations of the host, the labels `Op` of R111: `step r` is `Step(r)` (R13, R111). -/
inductive HostOp where
  | reset
  | load (bytes : List Byte)
  | setKeys (mask : Word)
  | step (r : Byte)
  | tick
deriving DecidableEq, Repr

/-- One operation, an atomic transition of the whole state (R13, R40, R60). -/
def perform (op : HostOp) (s : State) : Result :=
  match op with
  | .reset => .next (hostReset s)
  | .load bytes => .next (loadProgram bytes s)
  | .setKeys mask => .next (Machine.setKeys mask s)
  | .step r => stepWith r s
  | .tick => .next (tickTimers s)

/-- A finite run: the operations in the order the host issues them (R43, R111; log entry 14). -/
def runOps : List HostOp → State → Result
  | [], s => .next s
  | op :: ops, s =>
    match perform op s with
    | .next t => runOps ops t
    | .fault f => .fault f
    | .refused r => .refused r

/-- The first `n` operations of an infinite sequence of labels, from `s` (R111). -/
def runFirst (ops : Nat → HostOp) (n : Nat) (s : State) : Result := runOps ((List.range n).map ops) s

/-- An infinite run: `trace n` is the state after the first `n` operations of the infinite sequence `ops` (R111). -/
def InfiniteRun (ops : Nat → HostOp) (trace : Nat → State) : Prop :=
  ∀ n, perform (ops n) (trace n) = .next (trace (n + 1))

end Sys2Proof.Machine
end

