-- ==== Sys2Proof/Safety.lean ====
section
/-! DEFINITION. What counts as a safe run, and the terms that statements use: the invariant of the machine, the end of a program, and what an instruction may change (10_state.md R31 and R32, 40_step_cycle.md R64, 46_host_operations.md R120). -/

namespace Sys2Proof.Machine

/-- No fault has been raised: a faulted state is never a successful end of a run (R125). -/
abbrev Running (s : State) : Prop := s.fault = .none

/-- A fault points at the instruction that raised it: `PC` is its address and `SP` is what the fault says (R122, R124). -/
def FaultRecorded (s : State) : Prop :=
  match s.fault with
  | .none => True
  | .stackOverflow => s.sp.val = 16 ∧ ∃ addr, fetched s = .ok (.call addr)
  | .stackUnderflow => s.sp.val = 0 ∧ fetched s = .ok .ret

/-- The invariant of the machine: memory is in canonical form inside its 4096 addresses, and a raised fault is recorded as
R122 says. The other invariants of R31 (`SP` at most 16, the widths) hold by the types of State. -/
def Inv (s : State) : Prop := Memory.wf s.mem ∧ FaultRecorded s

/-- A program is finished when `PC` points at a jump to itself (R120: the spec's convention D27, not the block's; log entry 20). -/
def Finished (s : State) : Prop :=
  s.pc.toNat ≤ 0x0FFF ∧ fetchWord s = 0x1000#16 ||| BitVec.ofNat 16 (s.pc.toNat % 4096)

/-- The host keeps ticking: a premise of liveness claims, not a property of the block (R109, R119; log entry 14). -/
def TicksForever (ops : Nat → HostOp) : Prop := ∀ n, ∃ m, n ≤ m ∧ ops m = .tick

/-- The 17488 words that select no instruction, by R54's table: the family is the word's first hexadecimal digit, `n` its
last, `nn` its last two. -/
abbrev UnrecognizedWord (w : Word) : Prop :=
  (w.toNat / 4096 = 5 ∧ w.toNat % 16 ≠ 0) ∨
  (w.toNat / 4096 = 8 ∧ w.toNat % 16 ∈ [0x8, 0x9, 0xA, 0xB, 0xC, 0xD, 0xF]) ∨
  (w.toNat / 4096 = 9 ∧ w.toNat % 16 ≠ 0) ∨
  (w.toNat / 4096 = 14 ∧ w.toNat % 256 ∉ [0x9E, 0xA1]) ∨
  (w.toNat / 4096 = 15 ∧ w.toNat % 256 ∉ [0x07, 0x0A, 0x15, 0x18, 0x1E, 0x29, 0x33, 0x55, 0x65])

/-- The elements of the state that something may write, as a row of the access matrix R32. `mem` lists the addresses of
the bytes stored to, each already reduced. -/
structure Footprint where
  regs : List RegNum := []
  pc : Bool := false
  stack : Bool := false
  i : Bool := false
  dt : Bool := false
  st : Bool := false
  fb : Bool := false
  mem : List Nat := []
  fault : Bool := false
  draws : Bool := false
deriving DecidableEq, Repr

/-- Every element of the state outside the footprint has in `t` the value it has in `s`: every register, `PC`, the call
stack with its count, `I`, the timers, every pixel, every key, every byte of memory, the fault latch and the count of
draws. -/
def Frame (w : Footprint) (s t : State) : Prop :=
  (∀ r : RegNum, r ∉ w.regs → t.reg r = s.reg r) ∧
  (w.pc = false → t.pc = s.pc) ∧
  (w.stack = false → t.sp = s.sp ∧ ∀ k : Fin 16, t.stackCell k = s.stackCell k) ∧
  (w.i = false → t.i = s.i) ∧
  (w.dt = false → t.dt = s.dt) ∧
  (w.st = false → t.st = s.st) ∧
  (w.fb = false → ∀ r c, t.pixel r c = s.pixel r c) ∧
  (∀ k : KeyNum, t.keyHeld k = s.keyHeld k) ∧
  (∀ a : Nat, reduceAddr a ∉ w.mem → t.memRead a = s.memRead a) ∧
  (w.fault = false → t.fault = s.fault) ∧
  (w.draws = false → t.draws = s.draws)

/-- The reduced addresses of the `n` bytes from `I` upward (R93). -/
def indexRange (s : State) (n : Nat) : List Nat := (List.range n).map fun k => reduceAddr (indexAddr s k)

/-- What an instruction may write beyond the advance of `PC`: its row of the access matrix (R32), sharpened where the
state decides (`CALL`, `RET`, `LD Vx, K`). -/
def footprint (i : Instr) (s : State) : Footprint :=
  match i with
  | .cls => { fb := true }
  | .ret => if s.sp.val = 0 then { pc := true, fault := true } else { pc := true, stack := true }
  | .sys _ => {}
  | .jp _ => { pc := true }
  | .call _ => if s.sp.val = 16 then { pc := true, fault := true } else { pc := true, stack := true }
  | .seImm _ _ => { pc := true }
  | .sneImm _ _ => { pc := true }
  | .seReg _ _ => { pc := true }
  | .ldImm x _ => { regs := [x] }
  | .addImm x _ => { regs := [x] }
  | .ldReg x _ => { regs := [x] }
  | .orReg x _ => { regs := [x] }
  | .andReg x _ => { regs := [x] }
  | .xorReg x _ => { regs := [x] }
  | .addReg x _ => { regs := [vf, x] }
  | .subReg x _ => { regs := [vf, x] }
  | .shr x _ => { regs := [vf, x] }
  | .subnReg x _ => { regs := [vf, x] }
  | .shl x _ => { regs := [vf, x] }
  | .sneReg _ _ => { pc := true }
  | .ldI _ => { i := true }
  | .jpV0 _ => { pc := true }
  | .rnd x _ => { regs := [x], draws := true }
  | .drw _ _ _ => { regs := [vf], fb := true }
  | .skp _ => { pc := true }
  | .sknp _ => { pc := true }
  | .ldVxDt x => { regs := [x] }
  | .ldVxK x => if s.lowestHeldKey.isSome then { regs := [x] } else { pc := true }
  | .ldDtVx _ => { dt := true }
  | .ldStVx _ => { st := true }
  | .addI _ => { i := true }
  | .ldF _ => { i := true }
  | .ldB _ => { mem := indexRange s 3 }
  | .storeRegs x => { mem := indexRange s (x.val + 1) }
  | .loadRegs x => { regs := (List.finRange 16).filter fun r => r ≤ x }

end Sys2Proof.Machine
end

