-- ==== Sys2Proof/Certificates/Slice0/Obligations.lean ====
section
/-! DEFINITION. The statements for the provers. A meaning is given the state in which its rule starts: `PC` has already advanced past the instruction (R12), so `s.pc` below is the address of the next instruction. A statement about an instruction says that it completes, what it writes, and through `Frame` that it writes nothing else. -/

open Sys2Proof Sys2Proof.Machine

/-! ## Encoding -/

/-- Words written out from the patterns of R52, of each of the sixteen families, decode to the instructions they stand for,
and words of no row to nothing.
The patterns are the spec's general knowledge (30_encoding.md section 3, D8, D11; log entry 4). -/
def Obligations.DecodeReadsSampleWords : Prop :=
  decode 0x00E0#16 = .ok .cls ∧ decode 0x00EE#16 = .ok .ret ∧ decode 0x0123#16 = .ok (.sys 0x123#12) ∧
  decode 0x1ABC#16 = .ok (.jp 0xABC#12) ∧ decode 0xB300#16 = .ok (.jpV0 0x300#12) ∧ decode 0x2300#16 = .ok (.call 0x300#12) ∧
  decode 0x332A#16 = .ok (.seImm 3 0x2A#8) ∧ decode 0x432A#16 = .ok (.sneImm 3 0x2A#8) ∧
  decode 0x7205#16 = .ok (.addImm 2 0x05#8) ∧ decode 0xA2F0#16 = .ok (.ldI 0x2F0#12) ∧
  decode 0x5120#16 = .ok (.seReg 1 2) ∧ decode 0x9120#16 = .ok (.sneReg 1 2) ∧
  decode 0xE49E#16 = .ok (.skp 4) ∧ decode 0x6A3C#16 = .ok (.ldImm 10 0x3C#8) ∧ decode 0x8127#16 = .ok (.subnReg 1 2) ∧
  decode 0xC30F#16 = .ok (.rnd 3 0x0F#8) ∧ decode 0xF21E#16 = .ok (.addI 2) ∧ decode 0xF433#16 = .ok (.ldB 4) ∧
  decode 0xF255#16 = .ok (.storeRegs 2) ∧ decode 0xD125#16 = .ok (.drw 1 2 5) ∧ decode 0xF307#16 = .ok (.ldVxDt 3) ∧
  decode 0xF50A#16 = .ok (.ldVxK 5) ∧ decode 0x5121#16 = .error .unrecognizedFamily5 ∧
  decode 0x8128#16 = .error .unrecognizedFamily8 ∧ decode 0xF175#16 = .error .unrecognizedFamilyF

/-- Every well-formed instruction, at every value of its operands, is what its word decodes to, and what its two bytes
decode to with the bytes after them left over (R48, R49, R50). -/
def Obligations.EncodeThenDecodeIsIdentity : Prop :=
  ∀ i : Instr, i.wellFormed = true →
    decode (encode i) = .ok i ∧ ∀ rest : List Byte, decodeBytes (encodeBytes i ++ rest) = .ok (i, rest)

/-- A word that decodes is the word of the instruction it decodes to, which is well formed: no bit of a word is dropped and
no two words share an instruction term. The fields are those of R49 and R50; that an ignored field (the `y` of `SHR` and
`SHL`, the address of `SYS`) is kept in the term, so that words of one effect stay apart, is the model's choice (log
entry 11). -/
def Obligations.DecodeThenEncodeIsIdentity : Prop :=
  ∀ (w : Word) (i : Instr), decode w = .ok i → i.wellFormed = true ∧ encode i = w

/-- The two-level lookup of R53 agrees with the table of R52: the first row in table order that a word satisfies is the row
of the instruction it decodes to, and a word that satisfies no row decodes to nothing (the patterns: D8, log
entry 4). -/
def Obligations.DecoderFollowsOpcodeMap : Prop :=
  ∀ w : Word, match opcodeMap.find? fun r => decide (w &&& r.mask = r.bits) with
    | some r => ∃ i, decode w = .ok i ∧ i.row = r.order
    | none => ∃ why, decode w = .error why

/-- The words that decode to nothing are exactly those of R54's table; none is refused for want of bytes. The
patterns are the spec's general knowledge (D8, log entry 4), the full match of families 5 and 9 its choice D11 (log entry 13). -/
def Obligations.UnrecognizedWordsAreThoseOfTheTable : Prop :=
  ∀ w : Word, ((∃ why, decode w = .error why) ↔ UnrecognizedWord w) ∧ decode w ≠ .error .truncated

/-! ## The step -/

/-- A step of a machine that is not faulted runs the instruction that the two bytes at `PC`, high byte first, decode to,
with `PC` advanced by 2 modulo 65536 before it runs (R36, R59; that `PC` is not masked to 12 bits is the spec's choice D6,
log entry 9). -/
def Obligations.StepRunsTheDecodedInstruction : Prop :=
  ∀ (s : State) (i : Instr), s.fault = .none →
    decode (s.memRead s.pc.toNat ++ s.memRead (s.pc.toNat + 1)) = .ok i → step s = exec i { s with pc := s.pc + 2 }

/-- A word that decodes to no instruction is a no-op: `PC` advances by 2 and nothing else changes (R61). Which words those
are is the subject of `UnrecognizedWordsAreThoseOfTheTable`. -/
def Obligations.UnrecognizedWordIsNoOp : Prop :=
  ∀ (s : State) (why : DecodeReject), s.fault = .none →
    decode (s.memRead s.pc.toNat ++ s.memRead (s.pc.toNat + 1)) = .error why → step s = .next { s with pc := s.pc + 2 }

/-- `SYS addr` does nothing, and so does every word of family 0 but `CLS` and `RET`: `PC` advances by 2 and nothing else
changes (40_step_cycle.md; the spec's choice D10, log entry 13). -/
def Obligations.SysAddrIsNoOp : Prop :=
  (∀ (addr : Addr) (s : State), exec (.sys addr) s = .next s) ∧
  ∀ s : State, s.fault = .none → ∀ w : Word, w = s.memRead s.pc.toNat ++ s.memRead (s.pc.toNat + 1) →
    w.toNat < 0x1000 → w ≠ 0x00E0#16 → w ≠ 0x00EE#16 → step s = .next { s with pc := s.pc + 2 }

/-- No step stops: every instruction and every step, of any state, answers a next state (R60, R120: `step()` completes and
never refuses). A fault is a next state with the latch set (log entry 7). -/
def Obligations.EveryStepAnswersANextState : Prop :=
  (∀ (i : Instr) (s : State), ∃ t, exec i s = .next t) ∧ ∀ s : State, ∃ t, step s = .next t

/-- How each instruction leaves `PC`, counted from the address `s.pc` it was fetched at: the table of R18, with `SKP` and
`SKNP` testing the key numbered `V[x] mod 16`. What a fault leaves is the spec's choice D3, an unmasked `PC` D6 and D30, the
key number D16. -/
def Obligations.PcAfterEachStep : Prop :=
  ∀ (s : State) (i : Instr), s.fault = .none → fetched s = .ok i → ∃ t, step s = .next t ∧
    t.pc = match i with
      | .jp addr => addr.zeroExtend 16
      | .jpV0 addr => BitVec.ofNat 16 ((s.reg 0).toNat + addr.toNat)
      | .call addr => if s.sp.val = 16 then s.pc else addr.zeroExtend 16
      | .ret => if s.sp.val = 0 then s.pc else s.stackCell (Fin.ofNat 16 (s.sp.val - 1))
      | .seImm x nn => if s.reg x = nn then s.pc + 4 else s.pc + 2
      | .sneImm x nn => if s.reg x ≠ nn then s.pc + 4 else s.pc + 2
      | .seReg x y => if s.reg x = s.reg y then s.pc + 4 else s.pc + 2
      | .sneReg x y => if s.reg x ≠ s.reg y then s.pc + 4 else s.pc + 2
      | .skp x => if s.keyHeld (Fin.ofNat 16 (s.reg x).toNat) = true then s.pc + 4 else s.pc + 2
      | .sknp x => if s.keyHeld (Fin.ofNat 16 (s.reg x).toNat) = false then s.pc + 4 else s.pc + 2
      | .ldVxK _ => if ∀ k, s.keyHeld k = false then s.pc else s.pc + 2
      | _ => s.pc + 2

/-! ## Control flow -/

/-- `JP addr`: `PC <- addr`, zero-extended; nothing else is written (R66). -/
def Obligations.JumpSetsPcToAddr : Prop :=
  ∀ (addr : Addr) (s : State), ∃ t, exec (.jp addr) s = .next t ∧ t.pc.toNat = addr.toNat ∧ Frame { pc := true } s t

/-- `JP V0, addr`: `PC <- (V[0] + addr) mod 65536`, whatever the upper digit of `addr` is (R67); that the sum is not masked to
12 bits is the spec's choice D30 (log entry 9). -/
def Obligations.JumpV0AddsRegisterZero : Prop :=
  ∀ (addr : Addr) (s : State), ∃ t, exec (.jpV0 addr) s = .next t ∧
    t.pc.toNat = ((s.reg 0).toNat + addr.toNat) % 65536 ∧ Frame { pc := true } s t

/-- `CALL addr` with room on the stack: the address of the next instruction is pushed and `PC <- addr`; the other stack
cells are as before (R68). -/
def Obligations.CallPushesReturnAddress : Prop :=
  ∀ (addr : Addr) (s : State), s.sp.val < 16 → ∃ t, exec (.call addr) s = .next t ∧
    t.pc.toNat = addr.toNat ∧ t.sp.val = s.sp.val + 1 ∧
    (∀ k : Fin 16, t.stackCell k = if k.val = s.sp.val then s.pc else s.stackCell k) ∧
    Frame { pc := true, stack := true } s t

/-- `RET` with an entry on the stack: the last entry is popped into `PC`; every stack cell keeps its bits (R69). -/
def Obligations.ReturnPopsIntoPc : Prop :=
  ∀ s : State, 0 < s.sp.val → ∃ t, exec .ret s = .next t ∧
    (∀ k : Fin 16, k.val + 1 = s.sp.val → t.pc = s.stackCell k) ∧ t.sp.val + 1 = s.sp.val ∧
    (∀ k : Fin 16, t.stackCell k = s.stackCell k) ∧ Frame { pc := true, stack := true } s t

/-- The two faults: a `CALL` on a full stack and a `RET` on an empty one leave the state before the step, `PC` at the
faulting instruction, with only the latch set. That they are fatal is the spec's choice D2, the state they leave D3, the
latch D5 (log entry 7). -/
def Obligations.StackFaultsRollBackTheStep : Prop :=
  (∀ (addr : Addr) (s : State), s.sp.val = 16 → ∃ t, exec (.call addr) s = .next t ∧
    t.fault = .stackOverflow ∧ t.pc = s.pc - 2 ∧ Frame { pc := true, fault := true } s t) ∧
  (∀ s : State, s.sp.val = 0 → ∃ t, exec .ret s = .next t ∧
    t.fault = .stackUnderflow ∧ t.pc = s.pc - 2 ∧ Frame { pc := true, fault := true } s t) ∧
  (∀ (addr : Addr) (s : State), s.fault = .none → fetched s = .ok (.call addr) → s.sp.val = 16 →
    step s = .next { s with fault := .stackOverflow }) ∧
  ∀ s : State, s.fault = .none → fetched s = .ok .ret → s.sp.val = 0 →
    step s = .next { s with fault := .stackUnderflow }

/-- The four skips on a byte or a register: a further 2 is added to `PC` when the condition holds, nothing otherwise
(R70, R71, R72, R73). -/
def Obligations.SkipsCompareRegisters : Prop :=
  (∀ (x : RegNum) (nn : Byte) (s : State), ∃ t, exec (.seImm x nn) s = .next t ∧
    t.pc = (if s.reg x = nn then s.pc + 2 else s.pc) ∧ Frame { pc := true } s t) ∧
  (∀ (x : RegNum) (nn : Byte) (s : State), ∃ t, exec (.sneImm x nn) s = .next t ∧
    t.pc = (if s.reg x ≠ nn then s.pc + 2 else s.pc) ∧ Frame { pc := true } s t) ∧
  (∀ (x y : RegNum) (s : State), ∃ t, exec (.seReg x y) s = .next t ∧
    t.pc = (if s.reg x = s.reg y then s.pc + 2 else s.pc) ∧ Frame { pc := true } s t) ∧
  ∀ (x y : RegNum) (s : State), ∃ t, exec (.sneReg x y) s = .next t ∧
    t.pc = (if s.reg x ≠ s.reg y then s.pc + 2 else s.pc) ∧ Frame { pc := true } s t

/-- `SKP Vx` and `SKNP Vx` test the key numbered `V[x] mod 16`: that the operand is `V[x]` is the spec's general knowledge
G7, the reduction its choice D16 (log entry 10). -/
def Obligations.SkipsTestTheKeyInVx : Prop :=
  ∀ (x : RegNum) (k : KeyNum) (s : State), (s.reg x).toNat % 16 = k.val →
    (∃ t, exec (.skp x) s = .next t ∧ t.pc = (if s.keyHeld k = true then s.pc + 2 else s.pc) ∧
      Frame { pc := true } s t) ∧
    ∃ t, exec (.sknp x) s = .next t ∧ t.pc = (if s.keyHeld k = false then s.pc + 2 else s.pc) ∧ Frame { pc := true } s t

/-- Calling and then returning, whatever ran in between, if it left `SP` and the entries below it as the call did (a body
that itself calls and returns does; the cells at and above `SP` may hold anything): `PC` is again the address of the
instruction after the `CALL`, `SP` and the entries below it are as before, at each of the 16 depths (S8; R19, R68, R69). -/
def Obligations.ReturnUndoesCall : Prop :=
  ∀ (addr : Addr) (s : State), s.sp.val < 16 → ∃ t, exec (.call addr) s = .next t ∧
    ∀ t' : State, t'.sp = t.sp → (∀ k : Fin 16, k.val < t.sp.val → t'.stackCell k = t.stackCell k) →
      ∃ u, exec .ret t' = .next u ∧
        u.pc = s.pc ∧ u.sp = s.sp ∧ ∀ k : Fin 16, k.val < s.sp.val → u.stackCell k = s.stackCell k

/-- A finished program stays where it is: with `PC` at a jump to itself a step is the identity on the whole state
(46_host_operations.md section 3; that this is the end of a program is the spec's convention D27, log entry 20). -/
def Obligations.SelfJumpIsAFixedPoint : Prop :=
  ∀ s : State, Running s → Finished s → step s = .next s

/-! ## Register arithmetic, logic, shift, random -/

/-- `LD Vx, byte`, `ADD Vx, byte` (wrapping, no flag) and `LD Vx, Vy`: the destination is the only element written, so `VF`
changes only where it is the destination (R78, R79, R80). -/
def Obligations.LoadAddImmediateAndCopy : Prop :=
  (∀ (x : RegNum) (nn : Byte) (s : State), ∃ t, exec (.ldImm x nn) s = .next t ∧ t.reg x = nn ∧
    Frame { regs := [x] } s t) ∧
  (∀ (x : RegNum) (nn : Byte) (s : State), ∃ t, exec (.addImm x nn) s = .next t ∧
    (t.reg x).toNat = ((s.reg x).toNat + nn.toNat) % 256 ∧ Frame { regs := [x] } s t) ∧
  ∀ (x y : RegNum) (s : State), ∃ t, exec (.ldReg x y) s = .next t ∧ t.reg x = s.reg y ∧ Frame { regs := [x] } s t

/-- `OR`, `AND` and `XOR` act bit by bit and touch no flag (R81, R82, R83). -/
def Obligations.LogicActsBitByBit : Prop :=
  ∀ (x y : RegNum) (s : State),
    (∃ t, exec (.orReg x y) s = .next t ∧
      (∀ b < 8, (t.reg x).getLsbD b = ((s.reg x).getLsbD b || (s.reg y).getLsbD b)) ∧ Frame { regs := [x] } s t) ∧
    (∃ t, exec (.andReg x y) s = .next t ∧
      (∀ b < 8, (t.reg x).getLsbD b = ((s.reg x).getLsbD b && (s.reg y).getLsbD b)) ∧ Frame { regs := [x] } s t) ∧
    ∃ t, exec (.xorReg x y) s = .next t ∧
      (∀ b < 8, (t.reg x).getLsbD b = ((s.reg x).getLsbD b ^^ (s.reg y).getLsbD b)) ∧ Frame { regs := [x] } s t

/-- `ADD Vx, Vy` into a register other than `VF`: the sum modulo 256, and `VF` = 1 exactly when the sum passes 255 (R84).
`x = 15` is the subject of `ResultStaysInFlagRegister`. -/
def Obligations.AddRegistersSetsCarry : Prop :=
  ∀ (x y : RegNum) (s : State), x ≠ vf → ∃ t, exec (.addReg x y) s = .next t ∧
    (t.reg x).toNat = ((s.reg x).toNat + (s.reg y).toNat) % 256 ∧
    t.reg vf = (if (s.reg x).toNat + (s.reg y).toNat > 255 then 1 else 0) ∧ Frame { regs := [vf, x] } s t

/-- `SUB Vx, Vy` and `SUBN Vx, Vy` into a register other than `VF`: the difference modulo 256, and `VF` = 1 exactly when what
is subtracted from is strictly greater (42_alu.md section 3). That `SUBN` stores `V[y]` minus `V[x]` and that equal operands
give the flag 0 are the spec's resolutions of the conflicts C2 and C5 (90_conflicts.md, log entry 15). `x = 15` is the
subject of `ResultStaysInFlagRegister`. -/
def Obligations.SubtractsSetStrictlyGreater : Prop :=
  ∀ (x y : RegNum) (s : State), x ≠ vf →
    (∃ t, exec (.subReg x y) s = .next t ∧
      (t.reg x).toNat = ((s.reg x).toNat + 256 - (s.reg y).toNat) % 256 ∧
      t.reg vf = (if (s.reg x).toNat > (s.reg y).toNat then 1 else 0) ∧ Frame { regs := [vf, x] } s t) ∧
    ∃ t, exec (.subnReg x y) s = .next t ∧
      (t.reg x).toNat = ((s.reg y).toNat + 256 - (s.reg x).toNat) % 256 ∧
      t.reg vf = (if (s.reg y).toNat > (s.reg x).toNat then 1 else 0) ∧ Frame { regs := [vf, x] } s t

/-- `SHR Vx` and `SHL Vx` of a register other than `VF`: one position, `V[x]` in place whatever `y` is, and `VF` is the bit
shifted out (R86, R88). `x = 15` is the subject of `ResultStaysInFlagRegister`. -/
def Obligations.ShiftsCaptureTheBitShiftedOut : Prop :=
  ∀ (x y : RegNum) (s : State), x ≠ vf →
    (∃ t, exec (.shr x y) s = .next t ∧ (t.reg x).toNat = (s.reg x).toNat / 2 ∧
      (t.reg vf).toNat = (s.reg x).toNat % 2 ∧ Frame { regs := [vf, x] } s t) ∧
    ∃ t, exec (.shl x y) s = .next t ∧ (t.reg x).toNat = 2 * (s.reg x).toNat % 256 ∧
      (t.reg vf).toNat = (s.reg x).toNat / 128 ∧ Frame { regs := [vf, x] } s t

/-- With `VF` itself as the destination the result overwrites the flag, and is computed from the values before the
instruction (42_alu.md section 1; the order of the two writes is the spec's choice D12, log entry 8; that `SUBN` stores `V[y]` minus `VF`
is the spec's resolution of the conflict C2, log entry 15). -/
def Obligations.ResultStaysInFlagRegister : Prop :=
  ∀ (y : RegNum) (s : State),
    (∃ t, exec (.addReg vf y) s = .next t ∧
      (t.reg vf).toNat = ((s.reg vf).toNat + (s.reg y).toNat) % 256 ∧ Frame { regs := [vf] } s t) ∧
    (∃ t, exec (.subReg vf y) s = .next t ∧
      (t.reg vf).toNat = ((s.reg vf).toNat + 256 - (s.reg y).toNat) % 256 ∧ Frame { regs := [vf] } s t) ∧
    (∃ t, exec (.subnReg vf y) s = .next t ∧
      (t.reg vf).toNat = ((s.reg y).toNat + 256 - (s.reg vf).toNat) % 256 ∧ Frame { regs := [vf] } s t) ∧
    (∃ t, exec (.shr vf y) s = .next t ∧ (t.reg vf).toNat = (s.reg vf).toNat / 2 ∧ Frame { regs := [vf] } s t) ∧
    ∃ t, exec (.shl vf y) s = .next t ∧ (t.reg vf).toNat = 2 * (s.reg vf).toNat % 256 ∧ Frame { regs := [vf] } s t

/-- `RND Vx, byte`: the drawn byte masked by `nn`, bit by bit, and exactly one draw consumed (42_alu.md section 4). The draw
is the model's free value `Config.rnd` at the count of draws so far, about which nothing is known (log entry 3): the
statement holds for every value of it. -/
def Obligations.RandomIsTheDrawMasked : Prop :=
  ∀ (x : RegNum) (nn : Byte) (s : State), ∃ t, exec (.rnd x nn) s = .next t ∧
    (∀ b < 8, (t.reg x).getLsbD b = ((Config.rnd s.draws).getLsbD b && nn.getLsbD b)) ∧ t.draws = s.draws + 1 ∧
    Frame { regs := [x], draws := true } s t

/-! ## Index register and memory -/

/-- `LD I, addr`, `ADD I, Vx` (16-bit wrapping, no flag) and `LD F, Vx` (the whole byte times 5) write `I` alone
(R94, R95, R96). -/
def Obligations.IndexInstructionsSetI : Prop :=
  (∀ (addr : Addr) (s : State), ∃ t, exec (.ldI addr) s = .next t ∧ t.i.toNat = addr.toNat ∧ Frame { i := true } s t) ∧
  (∀ (x : RegNum) (s : State), ∃ t, exec (.addI x) s = .next t ∧
    t.i.toNat = (s.i.toNat + (s.reg x).toNat) % 65536 ∧ Frame { i := true } s t) ∧
  ∀ (x : RegNum) (s : State), ∃ t, exec (.ldF x) s = .next t ∧ t.i.toNat = (s.reg x).toNat * 5 ∧ Frame { i := true } s t

/-- Every byte address is reduced modulo 4096 where it is used, by reads and by writes alike, and a read after a write gives
the byte written at its reduced address and what was there before at every other (20_memory.md sections 2 and 7; the wrap is
the spec's choice D1, log entry 6). -/
def Obligations.MemoryReadsTheLatestWriteModulo4096 : Prop :=
  ∀ (s : State) (a b : Nat) (x : Byte), s.memRead a = s.memRead (a % 4096) ∧ s.memWrite a x = s.memWrite (a % 4096) x ∧
    (s.memWrite a x).memRead b = if b % 4096 = a % 4096 then x else s.memRead b

/-- `LD B, Vx`: three bytes from `I` upward hold the decimal digits of `V[x]`, each below 10, hundreds first, and every other
byte of memory is as before (43_index_memory.md section 2). That `I` is unchanged is the spec's choice D22 (log entry 18),
that the addresses wrap D1 (log entry 6). -/
def Obligations.BcdStoreWritesThreeDigits : Prop :=
  ∀ (x : RegNum) (s : State), ∃ t, exec (.ldB x) s = .next t ∧
    100 * (t.memRead s.i.toNat).toNat + 10 * (t.memRead (s.i.toNat + 1)).toNat + (t.memRead (s.i.toNat + 2)).toNat =
      (s.reg x).toNat ∧
    (t.memRead (s.i.toNat + 1)).toNat < 10 ∧ (t.memRead (s.i.toNat + 2)).toNat < 10 ∧
    Frame { mem := indexRange s 3 } s t

/-- `LD [I], Vx`: byte `I + k` holds `V[k]` for each `k` from 0 to `x` inclusive, and every other byte of memory is as before
(43_index_memory.md section 3). That `I` is unchanged is the spec's choice D22 (log entry 18), that the addresses wrap D1
(log entry 6). -/
def Obligations.BlockStoreCopiesRegisters : Prop :=
  ∀ (x : RegNum) (s : State), ∃ t, exec (.storeRegs x) s = .next t ∧
    (∀ k : RegNum, k.val ≤ x.val → t.memRead (s.i.toNat + k.val) = s.reg k) ∧ Frame { mem := indexRange s (x.val + 1) } s t

/-- `LD Vx, [I]`: `V[k]` holds byte `I + k` for each `k` from 0 to `x` inclusive; the higher registers, `I` and all of memory
are as before (43_index_memory.md section 3; `I` by D22, log entry 18; the addresses by D1, log entry 6). -/
def Obligations.BlockLoadCopiesMemory : Prop :=
  ∀ (x : RegNum) (s : State), ∃ t, exec (.loadRegs x) s = .next t ∧
    (∀ k : RegNum, k.val ≤ x.val → t.reg k = s.memRead (s.i.toNat + k.val)) ∧
    Frame { regs := (List.finRange 16).filter fun r => r ≤ x } s t

/-- A block store followed at once by a block load of the same `x` leaves the registers as they were, at every `x` and every
`I` (S5; the round-trip law in R99). That `I` is unchanged is the spec's choice D22 (log entry 18), that the addresses wrap
D1 (log entry 6). -/
def Obligations.BlockStoreThenLoadKeepsRegisters : Prop :=
  ∀ (x : RegNum) (s : State), ∃ t u, exec (.storeRegs x) s = .next t ∧ exec (.loadRegs x) t = .next u ∧
    (∀ r, u.reg r = s.reg r) ∧ u.i = s.i ∧ ∀ a, u.memRead a = t.memRead a

/-- A byte stored over the next instruction is what the next fetch reads: with two registers stored where `PC` points, the
fetched word is those two registers, the lower one first (20_memory.md section 7, self-modifying code; that the addresses wrap is the spec's choice D1, log
entry 6). -/
def Obligations.StoredCodeIsFetched : Prop :=
  ∀ (x k j : RegNum) (s : State), j.val = k.val + 1 → j.val ≤ x.val → (s.i.toNat + k.val) % 4096 = s.pc.toNat % 4096 →
    ∃ t, exec (.storeRegs x) s = .next t ∧ fetchWord t = s.reg k ++ s.reg j

/-! ## Display -/

/-- `CLS`: every pixel is off, `VF` and all else as before (44_display.md; the spec's general knowledge G3, D9, log entry 17). -/
def Obligations.ClearTurnsEveryPixelOff : Prop :=
  ∀ s : State, ∃ t, exec .cls s = .next t ∧ (∀ r c, t.pixel r c = false) ∧ Frame { fb := true } s t

/-- `DRW Vx, Vy, n`: sprite pixel (`row`, `bit`), bit `7 - bit` of byte `I + row`, is combined by XOR with the screen pixel at
row `(V[y] + row) mod 32`, column `(V[x] + bit) mod 64`; every other pixel is as before; `VF` is 1 exactly when some sprite
pixel and its screen pixel were both 1, else 0; the coordinates are those before `VF` is written, also where `x` or `y` is 15
(R101). The bit order is the spec's general knowledge (D14, log entry 10), the order of reading and resetting `VF` its choice
D13 and `n = 0` D24 (log entry 8), the wrap of the sprite's addresses D1 (log entry 6), `I` unchanged D22 (log entry 18); that
every row is taken modulo 32 is its resolution of the conflict C3 (log entry 15). -/
def Obligations.DrawXorsTheSprite : Prop :=
  ∀ (x y : RegNum) (n : Fin 16) (s : State), ∃ t, exec (.drw x y n) s = .next t ∧
    (∀ row bit (r : Fin 32) (c : Fin 64), row < n.val → bit < 8 →
      r.val = ((s.reg y).toNat + row) % 32 → c.val = ((s.reg x).toNat + bit) % 64 →
      t.pixel r c = (s.pixel r c ^^ (s.memRead (s.i.toNat + row)).getLsbD (7 - bit))) ∧
    (∀ (r : Fin 32) (c : Fin 64), (∀ row bit, row < n.val → bit < 8 →
      ¬ (r.val = ((s.reg y).toNat + row) % 32 ∧ c.val = ((s.reg x).toNat + bit) % 64)) → t.pixel r c = s.pixel r c) ∧
    (t.reg vf = 0 ∨ t.reg vf = 1) ∧
    (t.reg vf = 1 ↔ ∃ row bit, ∃ (r : Fin 32) (c : Fin 64), row < n.val ∧ bit < 8 ∧
      r.val = ((s.reg y).toNat + row) % 32 ∧ c.val = ((s.reg x).toNat + bit) % 64 ∧
      (s.memRead (s.i.toNat + row)).getLsbD (7 - bit) = true ∧ s.pixel r c = true) ∧
    Frame { regs := [vf], fb := true } s t

/-- The same sprite drawn twice at the same place restores the screen, whatever was on it; on a clear screen the first draw
reports no collision, and the second reports one exactly when the sprite has a 1 bit (S6; R101 corner case (e)). `x` and `y`
are not 15, where the first draw would move the second. That the first draw leaves `I` for the second is the spec's choice
D22 (log entry 18), that every row is taken modulo 32 its resolution of the conflict C3 (log entry 15), the bit order D14 (log
entry 10), the wrap of the sprite's addresses D1 (log entry 6). -/
def Obligations.DrawingTwiceRestoresTheScreen : Prop :=
  ∀ (x y : RegNum) (n : Fin 16) (s : State), x ≠ vf → y ≠ vf →
    ∃ t u, exec (.drw x y n) s = .next t ∧ exec (.drw x y n) t = .next u ∧
      (∀ r c, u.pixel r c = s.pixel r c) ∧
      ((∀ r c, s.pixel r c = false) → t.reg vf = 0 ∧
        (u.reg vf = 1 ↔ ∃ row bit, row < n.val ∧ bit < 8 ∧ (s.memRead (s.i.toNat + row)).getLsbD (7 - bit) = true) ∧
        (u.reg vf = 0 ∨ u.reg vf = 1))

/-! ## Timers and key-wait -/

/-- `LD Vx, DT`, `LD DT, Vx` and `LD ST, Vx` copy a byte, and in every state, whatever left it, `sound_on` is whether `ST` is
not 0, so after `LD ST, Vx` it is whether the byte loaded is not 0 (45_timers_keywait.md section 2, R110; the three
instructions are the spec's general knowledge G3, D9, log entry 17). -/
def Obligations.TimerInstructionsCopyBytes : Prop :=
  (∀ s : State, (soundOn s = true ↔ s.st.toNat ≠ 0) ∧ (readOut s).soundOn = soundOn s) ∧
  ∀ (x : RegNum) (s : State),
    (∃ t, exec (.ldVxDt x) s = .next t ∧ t.reg x = s.dt ∧ Frame { regs := [x] } s t) ∧
    (∃ t, exec (.ldDtVx x) s = .next t ∧ t.dt = s.reg x ∧ Frame { dt := true } s t) ∧
    ∃ t, exec (.ldStVx x) s = .next t ∧ t.st = s.reg x ∧ (soundOn t = true ↔ (s.reg x).toNat ≠ 0) ∧
      Frame { st := true } s t

/-- `LD Vx, K`: with a key held, the least held key is stored and `PC` stays advanced; with none held, `PC` goes back by 2
and nothing else changes, so that the whole step is the identity (R108). -/
def Obligations.KeyWaitStoresTheLeastHeldKey : Prop :=
  (∀ (x : RegNum) (k : KeyNum) (s : State), s.keyHeld k = true → (∀ j, j < k → s.keyHeld j = false) →
    ∃ t, exec (.ldVxK x) s = .next t ∧ (t.reg x).toNat = k.val ∧ Frame { regs := [x] } s t) ∧
  (∀ (x : RegNum) (s : State), (∀ k, s.keyHeld k = false) →
    ∃ t, exec (.ldVxK x) s = .next t ∧ t.pc = s.pc - 2 ∧ Frame { pc := true } s t) ∧
  ∀ (x : RegNum) (s : State), s.fault = .none → fetched s = .ok (.ldVxK x) → (∀ k, s.keyHeld k = false) →
    step s = .next s

/-- `tick_timers()` takes one from each timer that is not 0, each by itself, and changes nothing else; a faulted machine does
not tick (45_timers_keywait.md section 1). The faulted case is the spec's choice D4 (log entry 7); that one tick counts both
timers down and that a timer at 0 stays there are its resolutions of the conflicts C6 and C8 (log entry 15). -/
def Obligations.TickCountsBothTimersDown : Prop :=
  ∀ s : State,
    (s.fault = .none → (tickTimers s).dt.toNat = s.dt.toNat - 1 ∧ (tickTimers s).st.toNat = s.st.toNat - 1 ∧
      Frame { dt := true, st := true } s (tickTimers s)) ∧
    (s.fault ≠ .none → tickTimers s = s)

/-- `m` ticks bring a timer that starts at `v` to `v - m`, and to exactly 0 when `m` is at least `v`, where it stays
(S9; 45_timers_keywait.md section 1). That one tick counts both timers down and that a timer at 0 stays there are the spec's
resolutions of the conflicts C6 and C8 (log entry 15). -/
def Obligations.TicksReachZeroAndStay : Prop :=
  ∀ (m : Nat) (s : State), s.fault = .none →
    ∃ t, runOps (List.replicate m .tick) s = .next t ∧
      t.dt.toNat = s.dt.toNat - m ∧ t.st.toNat = s.st.toNat - m ∧ Frame { dt := true, st := true } s t

/-! ## Reset and the host -/

/-- What `reset()` leaves, for every value the two open parameters can have: `PC` = 0x200, an empty stack, cleared pixels, the
font table at address 0, no fault, the timers at the parameters, which are not 0; and zeros in `V`, `I`, `KEYS` and the rest
of memory, which are the spec's own choice (D19, log entry 2). The font's eighty bytes, glyph by glyph as the table of R30 has
them, are general knowledge (D18, log entry 5), the eighty bytes it takes up the resolution of the conflict C9 (log
entry 15). -/
def Obligations.ResetLeavesTheInitialState : Prop :=
  (State.reset = State.resetWith Config.dtReset Config.stReset ∧
    1 ≤ Config.dtReset.toNat ∧ 1 ≤ Config.stReset.toNat) ∧
  ∀ d e : Byte, ∀ s : State, s = State.resetWith d e →
    s.pc = 0x0200#16 ∧ s.sp.val = 0 ∧ s.dt = d ∧ s.st = e ∧ s.fault = .none ∧ s.i = 0 ∧
    (∀ r, s.reg r = 0) ∧ (∀ k, s.stackCell k = 0) ∧ (∀ r c, s.pixel r c = false) ∧ (∀ k, s.keyHeld k = false) ∧
    ((List.range 16).map fun g => (List.range 5).map fun k => s.memRead (5 * g + k)) =
      [[0xF0, 0x90, 0x90, 0x90, 0xF0], [0x20, 0x60, 0x20, 0x20, 0x70], [0xF0, 0x10, 0xF0, 0x80, 0xF0],
       [0xF0, 0x10, 0xF0, 0x10, 0xF0], [0x90, 0x90, 0xF0, 0x10, 0x10], [0xF0, 0x80, 0xF0, 0x10, 0xF0],
       [0xF0, 0x80, 0xF0, 0x90, 0xF0], [0xF0, 0x10, 0x20, 0x40, 0x40], [0xF0, 0x90, 0xF0, 0x90, 0xF0],
       [0xF0, 0x90, 0xF0, 0x10, 0xF0], [0xF0, 0x90, 0xF0, 0x90, 0x90], [0xE0, 0x90, 0xE0, 0x90, 0xE0],
       [0xF0, 0x80, 0x80, 0x80, 0xF0], [0xE0, 0x90, 0x90, 0x90, 0xE0], [0xF0, 0x80, 0xF0, 0x80, 0xF0],
       [0xF0, 0x80, 0xF0, 0x80, 0x80]] ∧
    ∀ a, 0x050 ≤ a → a < 4096 → s.memRead a = 0

/-- `reset()` is defined in every state, faulted or not, and leaves the state after reset: every element but the model's own
count of draws, which goes on (46_host_operations.md section 2; log entry 3). -/
def Obligations.HostResetWorksInEveryState : Prop :=
  ∀ s : State, ∃ t, perform .reset s = .next t ∧ t = { State.reset with draws := s.draws } ∧ Running t

/-- `set_keys(mask)` replaces all sixteen flags, key `k` by bit `k`, and changes nothing else; a faulted machine ignores it
(46_host_operations.md section 2; the bit order is the spec's choice D17, log entry 19; the faulted case D4, log entry 7). -/
def Obligations.SetKeysReplacesEveryFlag : Prop :=
  ∀ (mask : Word) (s : State),
    (s.fault = .none → (∀ k : KeyNum, (setKeys mask s).keyHeld k = mask.getLsbD k.val) ∧
      setKeys mask s = { s with keys := (setKeys mask s).keys }) ∧
    (s.fault ≠ .none → setKeys mask s = s)

/-- `load_program(bytes)`: at most 3584 bytes are copied to 0x200 upward and nothing else changes, the font region included;
a longer image is rejected with `LoadTooLarge` and no change; a faulted machine answers `Ok` and does not change
(46_host_operations.md section 2). The faulted case is the spec's choice D4 (log entry 7), that a load may come at any time
D26 (log entry 20). -/
def Obligations.LoadProgramCopiesTheImage : Prop :=
  ∀ (bytes : List Byte) (s : State),
    (s.fault ≠ .none → loadStatus bytes s = .ok ∧ loadProgram bytes s = s) ∧
    (s.fault = .none → bytes.length > 3584 → loadStatus bytes s = .loadTooLarge ∧ loadProgram bytes s = s) ∧
    (s.fault = .none → bytes.length ≤ 3584 → loadStatus bytes s = .ok ∧
      (∀ k x, bytes[k]? = some x → (loadProgram bytes s).memRead (0x200 + k) = x) ∧
      Frame { mem := (List.range bytes.length).map fun k => reduceAddr (0x200 + k) } s (loadProgram bytes s))

/-! ## The whole machine -/

/-- Every instruction keeps to its row of the access matrix: every element of the state that the row does not list as written
is unchanged, and the instruction completes (10_state.md section 8, 40_step_cycle.md R64; that the transfers and `DRW` leave
`I` is the spec's choice D22, log entry 18, that a fault leaves all but the latch D3, log entry 7). -/
def Obligations.InstructionsKeepToTheAccessMatrix : Prop :=
  ∀ (i : Instr) (s : State), ∃ t, exec i s = .next t ∧ Frame (footprint i s) s t

/-- A fault is raised by a `CALL` on a full stack or a `RET` on an empty one and by nothing else, and it changes the latch
alone (60_exceptions.md section 1; the policy is the spec's choice D2, D3, D5, log entry 7). -/
def Obligations.OnlyCallAndReturnFault : Prop :=
  ∀ (op : HostOp) (s t : State), s.fault = .none → perform op s = .next t → t.fault ≠ .none →
    (∃ r, op = .step r) ∧
    ((∃ addr, fetched s = .ok (.call addr) ∧ s.sp.val = 16 ∧ t = { s with fault := .stackOverflow }) ∨
      (fetched s = .ok .ret ∧ s.sp.val = 0 ∧ t = { s with fault := .stackUnderflow }))

/-- A faulted machine is frozen: whatever the host does short of `reset()`, in any number and order, nothing changes
(60_exceptions.md section 1; the spec's choice D4, log entry 7). -/
def Obligations.FaultedMachineIsFrozen : Prop :=
  ∀ (ops : List HostOp) (s : State), s.fault ≠ .none → HostOp.reset ∉ ops → runOps ops s = .next s

/-- No step decrements a timer or changes a key: a step leaves `KEYS` as they are, and a timer as it is unless the instruction
is the load of that timer, which leaves the register's value in it (10_state.md section 4, 45_timers_keywait.md section 1). -/
def Obligations.StepsNeverTickOrPressKeys : Prop :=
  ∀ s t : State, step s = .next t →
    t.keys = s.keys ∧
    (t.dt = s.dt ∨ ∃ x, fetched s = .ok (.ldDtVx x) ∧ t.dt = s.reg x) ∧
    (t.st = s.st ∨ ∃ x, fetched s = .ok (.ldStVx x) ∧ t.st = s.reg x)

/-- What changes the screen and memory: a pixel changes only by `DRW`, `CLS` or `reset()`, a byte of memory only by `LD B`,
`LD [I]`, `load_program` or `reset()`, whatever operation the host performs (10_state.md section 4, 44_display.md R103). -/
def Obligations.OnlyDrawsAndStoresChangeScreenAndMemory : Prop :=
  ∀ (op : HostOp) (s t : State), perform op s = .next t →
    ((∃ r c, t.pixel r c ≠ s.pixel r c) → op = .reset ∨ ((∃ b, op = .step b) ∧
      (fetched s = .ok .cls ∨ ∃ x y n, fetched s = .ok (.drw x y n)))) ∧
    ((∃ a, t.memRead a ≠ s.memRead a) → op = .reset ∨ (∃ bytes, op = .load bytes) ∨ ((∃ b, op = .step b) ∧
      ((∃ x, fetched s = .ok (.ldB x)) ∨ ∃ x, fetched s = .ok (.storeRegs x))))

/-- The state after reset meets the invariant: memory is in canonical form, which is the model's own (log entry 16), and what
the latch says is so, here that no fault has been raised (10_state.md section 7; the record of a fault is the spec's choice
D3, log entry 7). -/
def Obligations.ResetMeetsTheInvariant : Prop := Inv State.reset

/-- Every step, of any state that meets it, keeps the invariant: memory stays in canonical form inside its 4096 addresses,
and a raised fault stays recorded as it was raised, `PC` at the faulting instruction (10_state.md section 7, R122; that the
record is kept is the spec's choice D3, D4, log entry 7; the canonical form is the model's, log entry 16). -/
def Obligations.StepKeepsTheInvariant : Prop :=
  ∀ s t : State, Inv s → step s = .next t → Inv t

/-- Every finite run, of any length, with any operations of the host in any order and any draws, completes and keeps the
invariant (10_state.md section 7, 46_host_operations.md section 1). That memory is canonical is the model's own (log
entry 16), that the record of a fault is kept the spec's choice D3, D4 (log entry 7), that the order of operations is free its
choice D25 (log entry 14). -/
def Obligations.RunsKeepTheInvariant : Prop :=
  ∀ (ops : List HostOp) (s : State), Inv s → ∃ t, runOps ops s = .next t ∧ Inv t

/-! ## Labels and infinite runs -/

/-- `Step(r)`: where the fetched instruction is `RND` the label's draw is the byte used, masked bit by bit, and everything else
is as an `RND` has it; on every other word, and on a faulted machine, the draw is ignored and the step is the same for every
label (46_host_operations.md R111 and R117). That the step without a label takes its draw from the model's free value is log
entry 3. -/
def Obligations.StepLabelSuppliesTheDraw : Prop :=
  ∀ (r : Byte) (s : State),
    (∀ x nn, s.fault = .none → fetched s = .ok (.rnd x nn) → ∃ t, perform (.step r) s = .next t ∧
      (∀ b < 8, (t.reg x).getLsbD b = (r.getLsbD b && nn.getLsbD b)) ∧ t.pc = s.pc + 2 ∧ t.draws = s.draws + 1 ∧
      Frame { regs := [x], pc := true, draws := true } s t) ∧
    ((s.fault ≠ .none ∨ ∀ x nn, fetched s ≠ .ok (.rnd x nn)) → perform (.step r) s = step s) ∧
    perform (.step s.nextDraw) s = step s

/-- Every infinite sequence of operations is a run from every state, and only one: there is exactly one sequence of states
that starts there and goes on operation by operation, and what the finite prefixes of the sequence leave are its states
(46_host_operations.md section 1, R111, and R120: a run never ends by itself; the free order of operations is the spec's
choice D25, log entry 14). -/
def Obligations.InfiniteRunsExistAndAreUnique : Prop :=
  ∀ (ops : Nat → HostOp) (s : State), ∃ trace : Nat → State,
    trace 0 = s ∧ InfiniteRun ops trace ∧ (∀ n, runFirst ops n s = .next (trace n)) ∧
    ∀ other : Nat → State, other 0 = s → InfiniteRun ops other → ∀ n, other n = trace n

/-- Every state of an infinite run that starts in the invariant meets it, and a fault, once raised, stays as it is raised until
a `reset()` (10_state.md section 7; the canonical form of memory is log entry 16, the kept fault the spec's choice D4, log
entry 7, the free order of operations D25, log entry 14). -/
def Obligations.InfiniteRunsKeepTheInvariant : Prop :=
  ∀ (ops : Nat → HostOp) (trace : Nat → State), InfiniteRun ops trace → Inv (trace 0) →
    (∀ n, Inv (trace n)) ∧
    ∀ n k, (trace n).fault ≠ .none → (∀ m, n ≤ m → m < n + k → ops m ≠ .reset) → trace (n + k) = trace n

/-- In an infinite run of a machine that stays running, on which the host keeps ticking, does not reset, and no step loads
`DT`, the delay timer comes to 0 and stays there, however steps and ticks interleave; of what the program does, and of whether
the host steps at all, nothing is said (45_timers_keywait.md R109: the ticking
is a premise on the host, never a count of steps). That one tick counts both timers down and that a timer at 0 stays there
are the spec's resolutions of the conflicts C6 and C8 (log entry 15), the free order of operations D25 (log entry 14). -/
def Obligations.DelayTimerRunsOutUnderTicks : Prop :=
  ∀ (ops : Nat → HostOp) (trace : Nat → State), InfiniteRun ops trace → TicksForever ops →
    (∀ n, Running (trace n)) → (∀ n, ops n ≠ .reset) →
    (∀ n r x, ops n = .step r → fetched (trace n) ≠ .ok (.ldDtVx x)) →
    ∃ n, ∀ m, n ≤ m → (trace m).dt = 0
end

