-- ==== Sys2Proof/Laws/Decode.lean ====
section
/-! SUPPORT. The fields of the words the encoder makes, and that a word is the join of its fields (30_encoding.md R49). -/

namespace Sys2Proof

/-! ## The fields of a word of each layout (R50) -/

section
variable (f n : Nibble) (x y : RegNum) (nn : Byte) (addr : Addr)

@[simp] theorem fieldFam_wordXYN : fieldFam (wordXYN f x y n) = f := by
  apply BitVec.eq_of_getLsbD_eq; intro i hi
  simp only [fieldFam, wordXYN, BitVec.getLsbD_extractLsb', BitVec.getLsbD_append]
  interval_cases i <;> simp

@[simp] theorem fieldX_wordXYN : fieldX (wordXYN f x y n) = x := by
  have : (wordXYN f x y n).extractLsb' 8 4 = BitVec.ofFin x := by
    apply BitVec.eq_of_getLsbD_eq; intro i hi
    simp only [wordXYN, BitVec.getLsbD_extractLsb', BitVec.getLsbD_append]
    interval_cases i <;> simp
  unfold fieldX; rw [this]

@[simp] theorem fieldY_wordXYN : fieldY (wordXYN f x y n) = y := by
  have : (wordXYN f x y n).extractLsb' 4 4 = BitVec.ofFin y := by
    apply BitVec.eq_of_getLsbD_eq; intro i hi
    simp only [wordXYN, BitVec.getLsbD_extractLsb', BitVec.getLsbD_append]
    interval_cases i <;> simp
  unfold fieldY; rw [this]

@[simp] theorem fieldN_wordXYN : fieldN (wordXYN f x y n) = n := by
  apply BitVec.eq_of_getLsbD_eq; intro i hi
  simp only [fieldN, wordXYN, BitVec.getLsbD_extractLsb', BitVec.getLsbD_append]
  interval_cases i <;> simp

@[simp] theorem fieldFam_wordXNN : fieldFam (wordXNN f x nn) = f := by
  apply BitVec.eq_of_getLsbD_eq; intro i hi
  simp only [fieldFam, wordXNN, BitVec.getLsbD_extractLsb', BitVec.getLsbD_append]
  interval_cases i <;> simp

@[simp] theorem fieldX_wordXNN : fieldX (wordXNN f x nn) = x := by
  have : (wordXNN f x nn).extractLsb' 8 4 = BitVec.ofFin x := by
    apply BitVec.eq_of_getLsbD_eq; intro i hi
    simp only [wordXNN, BitVec.getLsbD_extractLsb', BitVec.getLsbD_append]
    interval_cases i <;> simp
  unfold fieldX; rw [this]

@[simp] theorem fieldNN_wordXNN : fieldNN (wordXNN f x nn) = nn := by
  apply BitVec.eq_of_getLsbD_eq; intro i hi
  simp only [fieldNN, wordXNN, BitVec.getLsbD_extractLsb', BitVec.getLsbD_append]
  interval_cases i <;> simp

@[simp] theorem fieldFam_wordNNN : fieldFam (wordNNN f addr) = f := by
  apply BitVec.eq_of_getLsbD_eq; intro i hi
  simp only [fieldFam, wordNNN, BitVec.getLsbD_extractLsb', BitVec.getLsbD_append]
  interval_cases i <;> simp

@[simp] theorem fieldAddr_wordNNN : fieldAddr (wordNNN f addr) = addr := by
  apply BitVec.eq_of_getLsbD_eq; intro i hi
  simp only [fieldAddr, wordNNN, BitVec.getLsbD_extractLsb', BitVec.getLsbD_append]
  interval_cases i <;> simp

end

/-! ## A word is the join of its fields -/

section
variable (w : Word)

theorem wordXYN_fields : wordXYN (fieldFam w) (fieldX w) (fieldY w) (fieldN w) = w := by
  apply BitVec.eq_of_getLsbD_eq; intro i hi
  simp only [wordXYN, fieldFam, fieldX, fieldY, fieldN, BitVec.ofFin_toFin, BitVec.getLsbD_append,
    BitVec.getLsbD_extractLsb']
  interval_cases i <;> simp

theorem wordXNN_fields : wordXNN (fieldFam w) (fieldX w) (fieldNN w) = w := by
  apply BitVec.eq_of_getLsbD_eq; intro i hi
  simp only [wordXNN, fieldFam, fieldX, fieldNN, BitVec.ofFin_toFin, BitVec.getLsbD_append, BitVec.getLsbD_extractLsb']
  interval_cases i <;> simp

theorem wordNNN_fields : wordNNN (fieldFam w) (fieldAddr w) = w := by
  apply BitVec.eq_of_getLsbD_eq; intro i hi
  simp only [wordNNN, fieldFam, fieldAddr, BitVec.getLsbD_append, BitVec.getLsbD_extractLsb']
  interval_cases i <;> simp

/-! ## The masks of the opcode map keep the fields they are made for (R52) -/

theorem and_maskFam : w &&& 0xF000#16 = wordNNN (fieldFam w) 0 := by
  apply BitVec.eq_of_getLsbD_eq; intro i hi
  simp only [wordNNN, fieldFam, BitVec.getLsbD_and, BitVec.getLsbD_append, BitVec.getLsbD_extractLsb']
  interval_cases i <;> simp

theorem and_maskFamN : w &&& 0xF00F#16 = wordXYN (fieldFam w) 0 0 (fieldN w) := by
  apply BitVec.eq_of_getLsbD_eq; intro i hi
  simp only [wordXYN, fieldFam, fieldN, BitVec.getLsbD_and, BitVec.getLsbD_append, BitVec.getLsbD_extractLsb']
  interval_cases i <;> simp

theorem and_maskFamNN : w &&& 0xF0FF#16 = wordXNN (fieldFam w) 0 (fieldNN w) := by
  apply BitVec.eq_of_getLsbD_eq; intro i hi
  simp only [wordXNN, fieldFam, fieldNN, BitVec.getLsbD_and, BitVec.getLsbD_append, BitVec.getLsbD_extractLsb']
  interval_cases i <;> simp

/-- A word satisfies a family row exactly when its family is the row's. -/
theorem and_maskFam_iff (f : Nibble) : w &&& 0xF000#16 = wordNNN f 0 ↔ fieldFam w = f := by
  rw [and_maskFam]
  exact ⟨fun h => by simpa using congrArg fieldFam h, fun h => h ▸ rfl⟩

/-- A word satisfies a row of families 5, 8 and 9 exactly when its family and its `n` are the row's. -/
theorem and_maskFamN_iff (f n : Nibble) : w &&& 0xF00F#16 = wordXYN f 0 0 n ↔ fieldFam w = f ∧ fieldN w = n := by
  rw [and_maskFamN]
  exact ⟨fun h => ⟨by simpa using congrArg fieldFam h, by simpa using congrArg fieldN h⟩, fun ⟨h, g⟩ => h ▸ g ▸ rfl⟩

/-- A word satisfies a row of families E and F exactly when its family and its `nn` are the row's. -/
theorem and_maskFamNN_iff (f : Nibble) (nn : Byte) :
    w &&& 0xF0FF#16 = wordXNN f 0 nn ↔ fieldFam w = f ∧ fieldNN w = nn := by
  rw [and_maskFamNN]
  exact ⟨fun h => ⟨by simpa using congrArg fieldFam h, by simpa using congrArg fieldNN h⟩, fun ⟨h, g⟩ => h ▸ g ▸ rfl⟩

/-! ## The fields as numbers (R49) -/

theorem fieldFam_toNat : (fieldFam w).toNat = w.toNat / 4096 := by
  have := w.isLt
  simp only [fieldFam, BitVec.extractLsb'_toNat, Nat.shiftRight_eq_div_pow]
  omega

theorem fieldN_toNat : (fieldN w).toNat = w.toNat % 16 := by simp [fieldN, BitVec.extractLsb'_toNat]

theorem fieldNN_toNat : (fieldNN w).toNat = w.toNat % 256 := by simp [fieldNN, BitVec.extractLsb'_toNat]

/-- The sixteen values of a 4-bit field, for a split by family or by `n`. -/
theorem nibble_cases (f : Nibble) :
    f = 0x0#4 ∨ f = 0x1#4 ∨ f = 0x2#4 ∨ f = 0x3#4 ∨ f = 0x4#4 ∨ f = 0x5#4 ∨ f = 0x6#4 ∨ f = 0x7#4 ∨ f = 0x8#4 ∨
      f = 0x9#4 ∨ f = 0xA#4 ∨ f = 0xB#4 ∨ f = 0xC#4 ∨ f = 0xD#4 ∨ f = 0xE#4 ∨ f = 0xF#4 := by
  revert f; decide

/-- The two bytes of a word, high byte first, are the word (R36). -/
theorem highByte_append_lowByte : highByte w ++ lowByte w = w := by
  apply BitVec.eq_of_getLsbD_eq; intro i hi
  simp only [highByte, lowByte, BitVec.getLsbD_append, BitVec.getLsbD_extractLsb']
  interval_cases i <;> simp

end

end Sys2Proof
end

