-- ==== Sys2Proof/Laws/State.lean ====
section
/-! SUPPORT. One lemma per field per update, and per read accessor, so that no later proof unfolds a record update. -/

namespace Sys2Proof.Machine

variable (s : State)

/-! ## `setReg` -/

@[simp] theorem State.setReg_v (r : RegNum) (x : Byte) : (s.setReg r x).v = s.v.set r x := rfl
@[simp] theorem State.setReg_pc (r : RegNum) (x : Byte) : (s.setReg r x).pc = s.pc := rfl
@[simp] theorem State.setReg_stack (r : RegNum) (x : Byte) : (s.setReg r x).stack = s.stack := rfl
@[simp] theorem State.setReg_sp (r : RegNum) (x : Byte) : (s.setReg r x).sp = s.sp := rfl
@[simp] theorem State.setReg_i (r : RegNum) (x : Byte) : (s.setReg r x).i = s.i := rfl
@[simp] theorem State.setReg_dt (r : RegNum) (x : Byte) : (s.setReg r x).dt = s.dt := rfl
@[simp] theorem State.setReg_st (r : RegNum) (x : Byte) : (s.setReg r x).st = s.st := rfl
@[simp] theorem State.setReg_fb (r : RegNum) (x : Byte) : (s.setReg r x).fb = s.fb := rfl
@[simp] theorem State.setReg_keys (r : RegNum) (x : Byte) : (s.setReg r x).keys = s.keys := rfl
@[simp] theorem State.setReg_mem (r : RegNum) (x : Byte) : (s.setReg r x).mem = s.mem := rfl
@[simp] theorem State.setReg_fault (r : RegNum) (x : Byte) : (s.setReg r x).fault = s.fault := rfl
@[simp] theorem State.setReg_draws (r : RegNum) (x : Byte) : (s.setReg r x).draws = s.draws := rfl
@[simp] theorem State.setReg_memRead (r : RegNum) (x : Byte) (b : Nat) : (s.setReg r x).memRead b = s.memRead b := rfl
@[simp] theorem State.setReg_stackCell (r : RegNum) (x : Byte) (k : Fin 16) : (s.setReg r x).stackCell k = s.stackCell k := rfl
@[simp] theorem State.setReg_pixel (r : RegNum) (x : Byte) (y : Fin 32) (z : Fin 64) : (s.setReg r x).pixel y z = s.pixel y z := rfl
@[simp] theorem State.setReg_keyHeld (r : RegNum) (x : Byte) (k : KeyNum) : (s.setReg r x).keyHeld k = s.keyHeld k := rfl

/-! ## `setPc` -/

@[simp] theorem State.setPc_v (a : Word) : (s.setPc a).v = s.v := rfl
@[simp] theorem State.setPc_pc (a : Word) : (s.setPc a).pc = a := rfl
@[simp] theorem State.setPc_stack (a : Word) : (s.setPc a).stack = s.stack := rfl
@[simp] theorem State.setPc_sp (a : Word) : (s.setPc a).sp = s.sp := rfl
@[simp] theorem State.setPc_i (a : Word) : (s.setPc a).i = s.i := rfl
@[simp] theorem State.setPc_dt (a : Word) : (s.setPc a).dt = s.dt := rfl
@[simp] theorem State.setPc_st (a : Word) : (s.setPc a).st = s.st := rfl
@[simp] theorem State.setPc_fb (a : Word) : (s.setPc a).fb = s.fb := rfl
@[simp] theorem State.setPc_keys (a : Word) : (s.setPc a).keys = s.keys := rfl
@[simp] theorem State.setPc_mem (a : Word) : (s.setPc a).mem = s.mem := rfl
@[simp] theorem State.setPc_fault (a : Word) : (s.setPc a).fault = s.fault := rfl
@[simp] theorem State.setPc_draws (a : Word) : (s.setPc a).draws = s.draws := rfl
@[simp] theorem State.setPc_reg (a : Word) (q : RegNum) : (s.setPc a).reg q = s.reg q := rfl
@[simp] theorem State.setPc_memRead (a : Word) (b : Nat) : (s.setPc a).memRead b = s.memRead b := rfl
@[simp] theorem State.setPc_stackCell (a : Word) (k : Fin 16) : (s.setPc a).stackCell k = s.stackCell k := rfl
@[simp] theorem State.setPc_pixel (a : Word) (y : Fin 32) (z : Fin 64) : (s.setPc a).pixel y z = s.pixel y z := rfl
@[simp] theorem State.setPc_keyHeld (a : Word) (k : KeyNum) : (s.setPc a).keyHeld k = s.keyHeld k := rfl

/-! ## `setI` -/

@[simp] theorem State.setI_v (a : Word) : (s.setI a).v = s.v := rfl
@[simp] theorem State.setI_pc (a : Word) : (s.setI a).pc = s.pc := rfl
@[simp] theorem State.setI_stack (a : Word) : (s.setI a).stack = s.stack := rfl
@[simp] theorem State.setI_sp (a : Word) : (s.setI a).sp = s.sp := rfl
@[simp] theorem State.setI_i (a : Word) : (s.setI a).i = a := rfl
@[simp] theorem State.setI_dt (a : Word) : (s.setI a).dt = s.dt := rfl
@[simp] theorem State.setI_st (a : Word) : (s.setI a).st = s.st := rfl
@[simp] theorem State.setI_fb (a : Word) : (s.setI a).fb = s.fb := rfl
@[simp] theorem State.setI_keys (a : Word) : (s.setI a).keys = s.keys := rfl
@[simp] theorem State.setI_mem (a : Word) : (s.setI a).mem = s.mem := rfl
@[simp] theorem State.setI_fault (a : Word) : (s.setI a).fault = s.fault := rfl
@[simp] theorem State.setI_draws (a : Word) : (s.setI a).draws = s.draws := rfl
@[simp] theorem State.setI_reg (a : Word) (q : RegNum) : (s.setI a).reg q = s.reg q := rfl
@[simp] theorem State.setI_memRead (a : Word) (b : Nat) : (s.setI a).memRead b = s.memRead b := rfl
@[simp] theorem State.setI_stackCell (a : Word) (k : Fin 16) : (s.setI a).stackCell k = s.stackCell k := rfl
@[simp] theorem State.setI_pixel (a : Word) (y : Fin 32) (z : Fin 64) : (s.setI a).pixel y z = s.pixel y z := rfl
@[simp] theorem State.setI_keyHeld (a : Word) (k : KeyNum) : (s.setI a).keyHeld k = s.keyHeld k := rfl

/-! ## `setDt` -/

@[simp] theorem State.setDt_v (x : Byte) : (s.setDt x).v = s.v := rfl
@[simp] theorem State.setDt_pc (x : Byte) : (s.setDt x).pc = s.pc := rfl
@[simp] theorem State.setDt_stack (x : Byte) : (s.setDt x).stack = s.stack := rfl
@[simp] theorem State.setDt_sp (x : Byte) : (s.setDt x).sp = s.sp := rfl
@[simp] theorem State.setDt_i (x : Byte) : (s.setDt x).i = s.i := rfl
@[simp] theorem State.setDt_dt (x : Byte) : (s.setDt x).dt = x := rfl
@[simp] theorem State.setDt_st (x : Byte) : (s.setDt x).st = s.st := rfl
@[simp] theorem State.setDt_fb (x : Byte) : (s.setDt x).fb = s.fb := rfl
@[simp] theorem State.setDt_keys (x : Byte) : (s.setDt x).keys = s.keys := rfl
@[simp] theorem State.setDt_mem (x : Byte) : (s.setDt x).mem = s.mem := rfl
@[simp] theorem State.setDt_fault (x : Byte) : (s.setDt x).fault = s.fault := rfl
@[simp] theorem State.setDt_draws (x : Byte) : (s.setDt x).draws = s.draws := rfl
@[simp] theorem State.setDt_reg (x : Byte) (q : RegNum) : (s.setDt x).reg q = s.reg q := rfl
@[simp] theorem State.setDt_memRead (x : Byte) (b : Nat) : (s.setDt x).memRead b = s.memRead b := rfl
@[simp] theorem State.setDt_stackCell (x : Byte) (k : Fin 16) : (s.setDt x).stackCell k = s.stackCell k := rfl
@[simp] theorem State.setDt_pixel (x : Byte) (y : Fin 32) (z : Fin 64) : (s.setDt x).pixel y z = s.pixel y z := rfl
@[simp] theorem State.setDt_keyHeld (x : Byte) (k : KeyNum) : (s.setDt x).keyHeld k = s.keyHeld k := rfl

/-! ## `setSt` -/

@[simp] theorem State.setSt_v (x : Byte) : (s.setSt x).v = s.v := rfl
@[simp] theorem State.setSt_pc (x : Byte) : (s.setSt x).pc = s.pc := rfl
@[simp] theorem State.setSt_stack (x : Byte) : (s.setSt x).stack = s.stack := rfl
@[simp] theorem State.setSt_sp (x : Byte) : (s.setSt x).sp = s.sp := rfl
@[simp] theorem State.setSt_i (x : Byte) : (s.setSt x).i = s.i := rfl
@[simp] theorem State.setSt_dt (x : Byte) : (s.setSt x).dt = s.dt := rfl
@[simp] theorem State.setSt_st (x : Byte) : (s.setSt x).st = x := rfl
@[simp] theorem State.setSt_fb (x : Byte) : (s.setSt x).fb = s.fb := rfl
@[simp] theorem State.setSt_keys (x : Byte) : (s.setSt x).keys = s.keys := rfl
@[simp] theorem State.setSt_mem (x : Byte) : (s.setSt x).mem = s.mem := rfl
@[simp] theorem State.setSt_fault (x : Byte) : (s.setSt x).fault = s.fault := rfl
@[simp] theorem State.setSt_draws (x : Byte) : (s.setSt x).draws = s.draws := rfl
@[simp] theorem State.setSt_reg (x : Byte) (q : RegNum) : (s.setSt x).reg q = s.reg q := rfl
@[simp] theorem State.setSt_memRead (x : Byte) (b : Nat) : (s.setSt x).memRead b = s.memRead b := rfl
@[simp] theorem State.setSt_stackCell (x : Byte) (k : Fin 16) : (s.setSt x).stackCell k = s.stackCell k := rfl
@[simp] theorem State.setSt_pixel (x : Byte) (y : Fin 32) (z : Fin 64) : (s.setSt x).pixel y z = s.pixel y z := rfl
@[simp] theorem State.setSt_keyHeld (x : Byte) (k : KeyNum) : (s.setSt x).keyHeld k = s.keyHeld k := rfl

/-! ## `memWrite` -/

@[simp] theorem State.memWrite_v (a : Nat) (x : Byte) : (s.memWrite a x).v = s.v := rfl
@[simp] theorem State.memWrite_pc (a : Nat) (x : Byte) : (s.memWrite a x).pc = s.pc := rfl
@[simp] theorem State.memWrite_stack (a : Nat) (x : Byte) : (s.memWrite a x).stack = s.stack := rfl
@[simp] theorem State.memWrite_sp (a : Nat) (x : Byte) : (s.memWrite a x).sp = s.sp := rfl
@[simp] theorem State.memWrite_i (a : Nat) (x : Byte) : (s.memWrite a x).i = s.i := rfl
@[simp] theorem State.memWrite_dt (a : Nat) (x : Byte) : (s.memWrite a x).dt = s.dt := rfl
@[simp] theorem State.memWrite_st (a : Nat) (x : Byte) : (s.memWrite a x).st = s.st := rfl
@[simp] theorem State.memWrite_fb (a : Nat) (x : Byte) : (s.memWrite a x).fb = s.fb := rfl
@[simp] theorem State.memWrite_keys (a : Nat) (x : Byte) : (s.memWrite a x).keys = s.keys := rfl
@[simp] theorem State.memWrite_mem (a : Nat) (x : Byte) : (s.memWrite a x).mem = Memory.write s.mem (reduceAddr a) x := rfl
@[simp] theorem State.memWrite_fault (a : Nat) (x : Byte) : (s.memWrite a x).fault = s.fault := rfl
@[simp] theorem State.memWrite_draws (a : Nat) (x : Byte) : (s.memWrite a x).draws = s.draws := rfl
@[simp] theorem State.memWrite_reg (a : Nat) (x : Byte) (q : RegNum) : (s.memWrite a x).reg q = s.reg q := rfl
@[simp] theorem State.memWrite_stackCell (a : Nat) (x : Byte) (k : Fin 16) : (s.memWrite a x).stackCell k = s.stackCell k := rfl
@[simp] theorem State.memWrite_pixel (a : Nat) (x : Byte) (y : Fin 32) (z : Fin 64) : (s.memWrite a x).pixel y z = s.pixel y z := rfl
@[simp] theorem State.memWrite_keyHeld (a : Nat) (x : Byte) (k : KeyNum) : (s.memWrite a x).keyHeld k = s.keyHeld k := rfl

/-! ## `push` -/

@[simp] theorem State.push_v (a : Word) : (s.push a).v = s.v := by
  unfold State.push; split <;> rfl
@[simp] theorem State.push_pc (a : Word) : (s.push a).pc = s.pc := by
  unfold State.push; split <;> rfl
@[simp] theorem State.push_i (a : Word) : (s.push a).i = s.i := by
  unfold State.push; split <;> rfl
@[simp] theorem State.push_dt (a : Word) : (s.push a).dt = s.dt := by
  unfold State.push; split <;> rfl
@[simp] theorem State.push_st (a : Word) : (s.push a).st = s.st := by
  unfold State.push; split <;> rfl
@[simp] theorem State.push_fb (a : Word) : (s.push a).fb = s.fb := by
  unfold State.push; split <;> rfl
@[simp] theorem State.push_keys (a : Word) : (s.push a).keys = s.keys := by
  unfold State.push; split <;> rfl
@[simp] theorem State.push_mem (a : Word) : (s.push a).mem = s.mem := by
  unfold State.push; split <;> rfl
@[simp] theorem State.push_fault (a : Word) : (s.push a).fault = s.fault := by
  unfold State.push; split <;> rfl
@[simp] theorem State.push_draws (a : Word) : (s.push a).draws = s.draws := by
  unfold State.push; split <;> rfl
@[simp] theorem State.push_reg (a : Word) (q : RegNum) : (s.push a).reg q = s.reg q := by
  unfold State.push; split <;> rfl
@[simp] theorem State.push_memRead (a : Word) (b : Nat) : (s.push a).memRead b = s.memRead b := by
  unfold State.push; split <;> rfl
@[simp] theorem State.push_pixel (a : Word) (y : Fin 32) (z : Fin 64) : (s.push a).pixel y z = s.pixel y z := by
  unfold State.push; split <;> rfl
@[simp] theorem State.push_keyHeld (a : Word) (k : KeyNum) : (s.push a).keyHeld k = s.keyHeld k := by
  unfold State.push; split <;> rfl

/-! ## `pop` -/

@[simp] theorem State.pop_v : s.pop.v = s.v := rfl
@[simp] theorem State.pop_pc : s.pop.pc = s.pc := rfl
@[simp] theorem State.pop_stack : s.pop.stack = s.stack := rfl
@[simp] theorem State.pop_i : s.pop.i = s.i := rfl
@[simp] theorem State.pop_dt : s.pop.dt = s.dt := rfl
@[simp] theorem State.pop_st : s.pop.st = s.st := rfl
@[simp] theorem State.pop_fb : s.pop.fb = s.fb := rfl
@[simp] theorem State.pop_keys : s.pop.keys = s.keys := rfl
@[simp] theorem State.pop_mem : s.pop.mem = s.mem := rfl
@[simp] theorem State.pop_fault : s.pop.fault = s.fault := rfl
@[simp] theorem State.pop_draws : s.pop.draws = s.draws := rfl
@[simp] theorem State.pop_reg (q : RegNum) : s.pop.reg q = s.reg q := rfl
@[simp] theorem State.pop_memRead (b : Nat) : s.pop.memRead b = s.memRead b := rfl
@[simp] theorem State.pop_stackCell (k : Fin 16) : s.pop.stackCell k = s.stackCell k := rfl
@[simp] theorem State.pop_pixel (y : Fin 32) (z : Fin 64) : s.pop.pixel y z = s.pixel y z := rfl
@[simp] theorem State.pop_keyHeld (k : KeyNum) : s.pop.keyHeld k = s.keyHeld k := rfl

/-! ## `setPixel` -/

@[simp] theorem State.setPixel_v (r : Fin 32) (c : Fin 64) (on : Bool) : (s.setPixel r c on).v = s.v := rfl
@[simp] theorem State.setPixel_pc (r : Fin 32) (c : Fin 64) (on : Bool) : (s.setPixel r c on).pc = s.pc := rfl
@[simp] theorem State.setPixel_stack (r : Fin 32) (c : Fin 64) (on : Bool) : (s.setPixel r c on).stack = s.stack := rfl
@[simp] theorem State.setPixel_sp (r : Fin 32) (c : Fin 64) (on : Bool) : (s.setPixel r c on).sp = s.sp := rfl
@[simp] theorem State.setPixel_i (r : Fin 32) (c : Fin 64) (on : Bool) : (s.setPixel r c on).i = s.i := rfl
@[simp] theorem State.setPixel_dt (r : Fin 32) (c : Fin 64) (on : Bool) : (s.setPixel r c on).dt = s.dt := rfl
@[simp] theorem State.setPixel_st (r : Fin 32) (c : Fin 64) (on : Bool) : (s.setPixel r c on).st = s.st := rfl
@[simp] theorem State.setPixel_fb (r : Fin 32) (c : Fin 64) (on : Bool) : (s.setPixel r c on).fb = s.fb.set r (s.fb[r].set c on) := rfl
@[simp] theorem State.setPixel_keys (r : Fin 32) (c : Fin 64) (on : Bool) : (s.setPixel r c on).keys = s.keys := rfl
@[simp] theorem State.setPixel_mem (r : Fin 32) (c : Fin 64) (on : Bool) : (s.setPixel r c on).mem = s.mem := rfl
@[simp] theorem State.setPixel_fault (r : Fin 32) (c : Fin 64) (on : Bool) : (s.setPixel r c on).fault = s.fault := rfl
@[simp] theorem State.setPixel_draws (r : Fin 32) (c : Fin 64) (on : Bool) : (s.setPixel r c on).draws = s.draws := rfl
@[simp] theorem State.setPixel_reg (r : Fin 32) (c : Fin 64) (on : Bool) (q : RegNum) : (s.setPixel r c on).reg q = s.reg q := rfl
@[simp] theorem State.setPixel_memRead (r : Fin 32) (c : Fin 64) (on : Bool) (b : Nat) : (s.setPixel r c on).memRead b = s.memRead b := rfl
@[simp] theorem State.setPixel_stackCell (r : Fin 32) (c : Fin 64) (on : Bool) (k : Fin 16) : (s.setPixel r c on).stackCell k = s.stackCell k := rfl
@[simp] theorem State.setPixel_keyHeld (r : Fin 32) (c : Fin 64) (on : Bool) (k : KeyNum) : (s.setPixel r c on).keyHeld k = s.keyHeld k := rfl

/-! ## `clearDisplay` -/

@[simp] theorem State.clearDisplay_v : s.clearDisplay.v = s.v := rfl
@[simp] theorem State.clearDisplay_pc : s.clearDisplay.pc = s.pc := rfl
@[simp] theorem State.clearDisplay_stack : s.clearDisplay.stack = s.stack := rfl
@[simp] theorem State.clearDisplay_sp : s.clearDisplay.sp = s.sp := rfl
@[simp] theorem State.clearDisplay_i : s.clearDisplay.i = s.i := rfl
@[simp] theorem State.clearDisplay_dt : s.clearDisplay.dt = s.dt := rfl
@[simp] theorem State.clearDisplay_st : s.clearDisplay.st = s.st := rfl
@[simp] theorem State.clearDisplay_fb : s.clearDisplay.fb = Vector.replicate 32 (Vector.replicate 64 false) := rfl
@[simp] theorem State.clearDisplay_keys : s.clearDisplay.keys = s.keys := rfl
@[simp] theorem State.clearDisplay_mem : s.clearDisplay.mem = s.mem := rfl
@[simp] theorem State.clearDisplay_fault : s.clearDisplay.fault = s.fault := rfl
@[simp] theorem State.clearDisplay_draws : s.clearDisplay.draws = s.draws := rfl
@[simp] theorem State.clearDisplay_reg (q : RegNum) : s.clearDisplay.reg q = s.reg q := rfl
@[simp] theorem State.clearDisplay_memRead (b : Nat) : s.clearDisplay.memRead b = s.memRead b := rfl
@[simp] theorem State.clearDisplay_stackCell (k : Fin 16) : s.clearDisplay.stackCell k = s.stackCell k := rfl
@[simp] theorem State.clearDisplay_keyHeld (k : KeyNum) : s.clearDisplay.keyHeld k = s.keyHeld k := rfl

/-! ## `consumeDraw` -/

@[simp] theorem State.consumeDraw_v : s.consumeDraw.v = s.v := rfl
@[simp] theorem State.consumeDraw_pc : s.consumeDraw.pc = s.pc := rfl
@[simp] theorem State.consumeDraw_stack : s.consumeDraw.stack = s.stack := rfl
@[simp] theorem State.consumeDraw_sp : s.consumeDraw.sp = s.sp := rfl
@[simp] theorem State.consumeDraw_i : s.consumeDraw.i = s.i := rfl
@[simp] theorem State.consumeDraw_dt : s.consumeDraw.dt = s.dt := rfl
@[simp] theorem State.consumeDraw_st : s.consumeDraw.st = s.st := rfl
@[simp] theorem State.consumeDraw_fb : s.consumeDraw.fb = s.fb := rfl
@[simp] theorem State.consumeDraw_keys : s.consumeDraw.keys = s.keys := rfl
@[simp] theorem State.consumeDraw_mem : s.consumeDraw.mem = s.mem := rfl
@[simp] theorem State.consumeDraw_fault : s.consumeDraw.fault = s.fault := rfl
@[simp] theorem State.consumeDraw_draws : s.consumeDraw.draws = s.draws + 1 := rfl
@[simp] theorem State.consumeDraw_reg (q : RegNum) : s.consumeDraw.reg q = s.reg q := rfl
@[simp] theorem State.consumeDraw_memRead (b : Nat) : s.consumeDraw.memRead b = s.memRead b := rfl
@[simp] theorem State.consumeDraw_stackCell (k : Fin 16) : s.consumeDraw.stackCell k = s.stackCell k := rfl
@[simp] theorem State.consumeDraw_pixel (y : Fin 32) (z : Fin 64) : s.consumeDraw.pixel y z = s.pixel y z := rfl
@[simp] theorem State.consumeDraw_keyHeld (k : KeyNum) : s.consumeDraw.keyHeld k = s.keyHeld k := rfl

/-! ## `setFault` -/

@[simp] theorem State.setFault_v (c : FaultLatch) : (s.setFault c).v = s.v := rfl
@[simp] theorem State.setFault_pc (c : FaultLatch) : (s.setFault c).pc = s.pc := rfl
@[simp] theorem State.setFault_stack (c : FaultLatch) : (s.setFault c).stack = s.stack := rfl
@[simp] theorem State.setFault_sp (c : FaultLatch) : (s.setFault c).sp = s.sp := rfl
@[simp] theorem State.setFault_i (c : FaultLatch) : (s.setFault c).i = s.i := rfl
@[simp] theorem State.setFault_dt (c : FaultLatch) : (s.setFault c).dt = s.dt := rfl
@[simp] theorem State.setFault_st (c : FaultLatch) : (s.setFault c).st = s.st := rfl
@[simp] theorem State.setFault_fb (c : FaultLatch) : (s.setFault c).fb = s.fb := rfl
@[simp] theorem State.setFault_keys (c : FaultLatch) : (s.setFault c).keys = s.keys := rfl
@[simp] theorem State.setFault_mem (c : FaultLatch) : (s.setFault c).mem = s.mem := rfl
@[simp] theorem State.setFault_fault (c : FaultLatch) : (s.setFault c).fault = c := rfl
@[simp] theorem State.setFault_draws (c : FaultLatch) : (s.setFault c).draws = s.draws := rfl
@[simp] theorem State.setFault_reg (c : FaultLatch) (q : RegNum) : (s.setFault c).reg q = s.reg q := rfl
@[simp] theorem State.setFault_memRead (c : FaultLatch) (b : Nat) : (s.setFault c).memRead b = s.memRead b := rfl
@[simp] theorem State.setFault_stackCell (c : FaultLatch) (k : Fin 16) : (s.setFault c).stackCell k = s.stackCell k := rfl
@[simp] theorem State.setFault_pixel (c : FaultLatch) (y : Fin 32) (z : Fin 64) : (s.setFault c).pixel y z = s.pixel y z := rfl
@[simp] theorem State.setFault_keyHeld (c : FaultLatch) (k : KeyNum) : (s.setFault c).keyHeld k = s.keyHeld k := rfl

/-! ## `advancePc` -/

@[simp] theorem State.advancePc_v : s.advancePc.v = s.v := rfl
@[simp] theorem State.advancePc_pc : s.advancePc.pc = s.pc + 2 := rfl
@[simp] theorem State.advancePc_stack : s.advancePc.stack = s.stack := rfl
@[simp] theorem State.advancePc_sp : s.advancePc.sp = s.sp := rfl
@[simp] theorem State.advancePc_i : s.advancePc.i = s.i := rfl
@[simp] theorem State.advancePc_dt : s.advancePc.dt = s.dt := rfl
@[simp] theorem State.advancePc_st : s.advancePc.st = s.st := rfl
@[simp] theorem State.advancePc_fb : s.advancePc.fb = s.fb := rfl
@[simp] theorem State.advancePc_keys : s.advancePc.keys = s.keys := rfl
@[simp] theorem State.advancePc_mem : s.advancePc.mem = s.mem := rfl
@[simp] theorem State.advancePc_fault : s.advancePc.fault = s.fault := rfl
@[simp] theorem State.advancePc_draws : s.advancePc.draws = s.draws := rfl
@[simp] theorem State.advancePc_reg (q : RegNum) : s.advancePc.reg q = s.reg q := rfl
@[simp] theorem State.advancePc_memRead (b : Nat) : s.advancePc.memRead b = s.memRead b := rfl
@[simp] theorem State.advancePc_stackCell (k : Fin 16) : s.advancePc.stackCell k = s.stackCell k := rfl
@[simp] theorem State.advancePc_pixel (y : Fin 32) (z : Fin 64) : s.advancePc.pixel y z = s.pixel y z := rfl
@[simp] theorem State.advancePc_keyHeld (k : KeyNum) : s.advancePc.keyHeld k = s.keyHeld k := rfl

/-! ## `rewindPc` -/

@[simp] theorem State.rewindPc_v : s.rewindPc.v = s.v := rfl
@[simp] theorem State.rewindPc_pc : s.rewindPc.pc = s.pc - 2 := rfl
@[simp] theorem State.rewindPc_stack : s.rewindPc.stack = s.stack := rfl
@[simp] theorem State.rewindPc_sp : s.rewindPc.sp = s.sp := rfl
@[simp] theorem State.rewindPc_i : s.rewindPc.i = s.i := rfl
@[simp] theorem State.rewindPc_dt : s.rewindPc.dt = s.dt := rfl
@[simp] theorem State.rewindPc_st : s.rewindPc.st = s.st := rfl
@[simp] theorem State.rewindPc_fb : s.rewindPc.fb = s.fb := rfl
@[simp] theorem State.rewindPc_keys : s.rewindPc.keys = s.keys := rfl
@[simp] theorem State.rewindPc_mem : s.rewindPc.mem = s.mem := rfl
@[simp] theorem State.rewindPc_fault : s.rewindPc.fault = s.fault := rfl
@[simp] theorem State.rewindPc_draws : s.rewindPc.draws = s.draws := rfl
@[simp] theorem State.rewindPc_reg (q : RegNum) : s.rewindPc.reg q = s.reg q := rfl
@[simp] theorem State.rewindPc_memRead (b : Nat) : s.rewindPc.memRead b = s.memRead b := rfl
@[simp] theorem State.rewindPc_stackCell (k : Fin 16) : s.rewindPc.stackCell k = s.stackCell k := rfl
@[simp] theorem State.rewindPc_pixel (y : Fin 32) (z : Fin 64) : s.rewindPc.pixel y z = s.pixel y z := rfl
@[simp] theorem State.rewindPc_keyHeld (k : KeyNum) : s.rewindPc.keyHeld k = s.keyHeld k := rfl

/-! ## `skipIf` -/

@[simp] theorem State.skipIf_v (p : Bool) : (s.skipIf p).v = s.v := by
  unfold State.skipIf; split <;> rfl
@[simp] theorem State.skipIf_stack (p : Bool) : (s.skipIf p).stack = s.stack := by
  unfold State.skipIf; split <;> rfl
@[simp] theorem State.skipIf_sp (p : Bool) : (s.skipIf p).sp = s.sp := by
  unfold State.skipIf; split <;> rfl
@[simp] theorem State.skipIf_i (p : Bool) : (s.skipIf p).i = s.i := by
  unfold State.skipIf; split <;> rfl
@[simp] theorem State.skipIf_dt (p : Bool) : (s.skipIf p).dt = s.dt := by
  unfold State.skipIf; split <;> rfl
@[simp] theorem State.skipIf_st (p : Bool) : (s.skipIf p).st = s.st := by
  unfold State.skipIf; split <;> rfl
@[simp] theorem State.skipIf_fb (p : Bool) : (s.skipIf p).fb = s.fb := by
  unfold State.skipIf; split <;> rfl
@[simp] theorem State.skipIf_keys (p : Bool) : (s.skipIf p).keys = s.keys := by
  unfold State.skipIf; split <;> rfl
@[simp] theorem State.skipIf_mem (p : Bool) : (s.skipIf p).mem = s.mem := by
  unfold State.skipIf; split <;> rfl
@[simp] theorem State.skipIf_fault (p : Bool) : (s.skipIf p).fault = s.fault := by
  unfold State.skipIf; split <;> rfl
@[simp] theorem State.skipIf_draws (p : Bool) : (s.skipIf p).draws = s.draws := by
  unfold State.skipIf; split <;> rfl
@[simp] theorem State.skipIf_reg (p : Bool) (q : RegNum) : (s.skipIf p).reg q = s.reg q := by
  unfold State.skipIf; split <;> rfl
@[simp] theorem State.skipIf_memRead (p : Bool) (b : Nat) : (s.skipIf p).memRead b = s.memRead b := by
  unfold State.skipIf; split <;> rfl
@[simp] theorem State.skipIf_stackCell (p : Bool) (k : Fin 16) : (s.skipIf p).stackCell k = s.stackCell k := by
  unfold State.skipIf; split <;> rfl
@[simp] theorem State.skipIf_pixel (p : Bool) (y : Fin 32) (z : Fin 64) : (s.skipIf p).pixel y z = s.pixel y z := by
  unfold State.skipIf; split <;> rfl
@[simp] theorem State.skipIf_keyHeld (p : Bool) (k : KeyNum) : (s.skipIf p).keyHeld k = s.keyHeld k := by
  unfold State.skipIf; split <;> rfl

/-! ## `raiseFault` -/

@[simp] theorem raiseFault_v (c : FaultLatch) : (raiseFault c s).v = s.v := rfl
@[simp] theorem raiseFault_pc (c : FaultLatch) : (raiseFault c s).pc = s.pc - 2 := rfl
@[simp] theorem raiseFault_stack (c : FaultLatch) : (raiseFault c s).stack = s.stack := rfl
@[simp] theorem raiseFault_sp (c : FaultLatch) : (raiseFault c s).sp = s.sp := rfl
@[simp] theorem raiseFault_i (c : FaultLatch) : (raiseFault c s).i = s.i := rfl
@[simp] theorem raiseFault_dt (c : FaultLatch) : (raiseFault c s).dt = s.dt := rfl
@[simp] theorem raiseFault_st (c : FaultLatch) : (raiseFault c s).st = s.st := rfl
@[simp] theorem raiseFault_fb (c : FaultLatch) : (raiseFault c s).fb = s.fb := rfl
@[simp] theorem raiseFault_keys (c : FaultLatch) : (raiseFault c s).keys = s.keys := rfl
@[simp] theorem raiseFault_mem (c : FaultLatch) : (raiseFault c s).mem = s.mem := rfl
@[simp] theorem raiseFault_fault (c : FaultLatch) : (raiseFault c s).fault = c := rfl
@[simp] theorem raiseFault_draws (c : FaultLatch) : (raiseFault c s).draws = s.draws := rfl
@[simp] theorem raiseFault_reg (c : FaultLatch) (q : RegNum) : (raiseFault c s).reg q = s.reg q := rfl
@[simp] theorem raiseFault_memRead (c : FaultLatch) (b : Nat) : (raiseFault c s).memRead b = s.memRead b := rfl
@[simp] theorem raiseFault_stackCell (c : FaultLatch) (k : Fin 16) : (raiseFault c s).stackCell k = s.stackCell k := rfl
@[simp] theorem raiseFault_pixel (c : FaultLatch) (y : Fin 32) (z : Fin 64) : (raiseFault c s).pixel y z = s.pixel y z := rfl
@[simp] theorem raiseFault_keyHeld (c : FaultLatch) (k : KeyNum) : (raiseFault c s).keyHeld k = s.keyHeld k := rfl

end Sys2Proof.Machine
end

