-- ==== Sys2Proof/Laws/Memory.lean ====
section
/-! SUPPORT. The laws of memory: a read after a write, and that a write keeps the canonical form. -/

namespace Sys2Proof.Machine

theorem Memory.read_insert (m : Memory) (a b : Nat) (x : Byte) :
    Memory.read (Memory.insert m a x) b = if b = a then x else Memory.read m b := by
  induction m with
  | nil => simp [Memory.insert, Memory.read]
  | cons c rest ih =>
    obtain ⟨d, y⟩ := c
    unfold Memory.insert
    split
    · rfl
    · split
      · next h => subst h; simp only [Memory.read]; split <;> rfl
      · simp only [Memory.read, ih]
        split
        · next h1 h2 h3 => subst h3; rw [if_neg (Ne.symm h2)]
        · rfl

theorem Memory.read_erase (m : Memory) (a b : Nat) :
    Memory.read (Memory.erase m a) b = if b = a then Memory.background a else Memory.read m b := by
  induction m with
  | nil => simp only [Memory.erase, List.filter_nil, Memory.read]; split <;> simp_all
  | cons c rest ih =>
    obtain ⟨d, y⟩ := c
    unfold Memory.erase at ih ⊢
    rw [List.filter_cons]
    by_cases h : d = a
    · subst h
      simp only [bne_self_eq_false, Bool.false_eq_true, if_false, ih, Memory.read]
      split <;> rfl
    · simp only [bne_iff_ne, ne_eq, h, not_false_eq_true, if_true, Memory.read, ih]
      by_cases e : b = d
      · subst e; simp [h]
      · simp [e]

/-- A read after a write gives the value written at its address, and what was there before at any other (R43). -/
theorem Memory.read_write (m : Memory) (a b : Nat) (x : Byte) :
    Memory.read (Memory.write m a x) b = if b = a then x else Memory.read m b := by
  unfold Memory.write
  split
  · next h => rw [Memory.read_erase, h]
  · exact Memory.read_insert m a b x

theorem Memory.mem_insert {m : Memory} {a : Nat} {x : Byte} {c : Host.Cell} (h : c ∈ Memory.insert m a x) :
    c = (a, x) ∨ c ∈ m := by
  induction m with
  | nil => simpa [Memory.insert] using h
  | cons d rest ih =>
    unfold Memory.insert at h
    split at h
    · simpa using h
    · split at h
      · exact (List.mem_cons.mp h).imp id (List.mem_cons_of_mem _)
      · rcases List.mem_cons.mp h with h | h
        · exact .inr (h ▸ List.mem_cons_self)
        · exact (ih h).imp id (List.mem_cons_of_mem _)

theorem Memory.pairwise_insert {m : Memory} (a : Nat) (x : Byte) (h : m.Pairwise fun c d => c.1 < d.1) :
    (Memory.insert m a x).Pairwise fun c d => c.1 < d.1 := by
  induction m with
  | nil => simp [Memory.insert]
  | cons d rest ih =>
    have hd : ∀ {c}, c ∈ rest → d.1 < c.1 := List.rel_of_pairwise_cons h
    unfold Memory.insert
    split
    · next ha =>
      refine List.pairwise_cons.mpr ⟨fun c hc => ?_, h⟩
      rcases List.mem_cons.mp hc with rfl | hc
      · exact ha
      · exact Nat.lt_trans ha (hd hc)
    · split
      · next e => exact List.pairwise_cons.mpr ⟨fun c hc => e ▸ hd hc, h.of_cons⟩
      · next h1 h2 =>
        refine List.pairwise_cons.mpr ⟨fun c hc => ?_, ih h.of_cons⟩
        rcases Memory.mem_insert hc with rfl | hc
        · exact Nat.lt_of_le_of_ne (Nat.le_of_not_lt h1) (Ne.symm h2)
        · exact hd hc

/-- A write inside the 4096 addresses keeps the canonical form. -/
theorem Memory.wf_write {m : Memory} {a : Nat} (x : Byte) (ha : a < 4096) (h : Memory.wf m) :
    Memory.wf (Memory.write m a x) := by
  unfold Memory.write
  split
  · exact ⟨h.1.filter _, fun c hc => h.2 c (List.mem_filter.mp hc).1⟩
  · next hx =>
    refine ⟨Memory.pairwise_insert a x h.1, fun c hc => ?_⟩
    rcases Memory.mem_insert hc with rfl | hc
    · exact ⟨ha, hx⟩
    · exact h.2 c hc

theorem reduceAddr_lt (a : Nat) : reduceAddr a < 4096 := Nat.mod_lt _ (by decide)

/-- `MemWrite` keeps the canonical form, whatever the address (R10, R35). -/
theorem State.wf_memWrite {s : State} (a : Nat) (x : Byte) (h : Memory.wf s.mem) : Memory.wf (s.memWrite a x).mem :=
  Memory.wf_write x (reduceAddr_lt a) h

/-- `MemRead` after `MemWrite` (R10, R35, R43). -/
theorem State.memRead_memWrite (s : State) (a b : Nat) (x : Byte) :
    (s.memWrite a x).memRead b = if reduceAddr b = reduceAddr a then x else s.memRead b :=
  Memory.read_write s.mem (reduceAddr a) (reduceAddr b) x

theorem State.memRead_memWrite_same (s : State) (a : Nat) (x : Byte) : (s.memWrite a x).memRead a = x := by
  rw [State.memRead_memWrite, if_pos rfl]

theorem State.memRead_memWrite_ne (s : State) {a b : Nat} (x : Byte) (h : reduceAddr b ≠ reduceAddr a) :
    (s.memWrite a x).memRead b = s.memRead b := by
  rw [State.memRead_memWrite, if_neg h]

/-- A read depends on the reduced address alone (R35). -/
theorem State.memRead_congr (s : State) {a b : Nat} (h : reduceAddr a = reduceAddr b) : s.memRead a = s.memRead b := by
  unfold State.memRead; rw [h]

end Sys2Proof.Machine
end

