-- ==== Sys2Proof/Laws/Ops.lean ====
section
/-! SUPPORT. What each shared operation does, said once: registers, stack, framebuffer, flags, faults, loops. -/

namespace Sys2Proof.Machine

variable (s : State)

/-! ## Registers -/

@[simp] theorem State.reg_setReg (r q : RegNum) (x : Byte) : (s.setReg r x).reg q = if q = r then x else s.reg q := by
  simp only [State.reg, State.setReg, Fin.getElem_fin, Vector.getElem_set, Fin.ext_iff, eq_comm]

theorem State.reg_setReg_same (r : RegNum) (x : Byte) : (s.setReg r x).reg r = x := by simp

theorem State.reg_setReg_ne {r q : RegNum} (x : Byte) (h : q ≠ r) : (s.setReg r x).reg q = s.reg q := by simp [h]

/-- A flag is 1 or 0, and 1 exactly when its condition holds (R17). -/
theorem flagByte_eq_one_iff (p : Bool) : flagByte p = 1 ↔ p = true := by cases p <;> decide

theorem flagByte_le_one (p : Bool) : flagByte p = 0 ∨ flagByte p = 1 := by cases p <;> decide

/-- The destination holds the result, whatever it is (R77, R91). -/
@[simp] theorem reg_setFlagThenResult (x q : RegNum) (flag result : Byte) :
    (setFlagThenResult x flag result s).reg q = if q = x then result else if q = vf then flag else s.reg q := by
  simp [setFlagThenResult]

/-! ## Skips -/

@[simp] theorem State.skipIf_pc (p : Bool) : (s.skipIf p).pc = if p then s.pc + 2 else s.pc := by
  unfold State.skipIf; split <;> rfl

/-! ## The call stack -/

theorem State.push_sp (a : Word) (room : s.sp.val < 16) : (s.push a).sp.val = s.sp.val + 1 := by
  unfold State.push; rw [dif_pos room]

theorem State.push_stackCell (a : Word) (room : s.sp.val < 16) (k : Fin 16) :
    (s.push a).stackCell k = if k.val = s.sp.val then a else s.stackCell k := by
  unfold State.push; rw [dif_pos room]
  simp only [State.stackCell, Fin.getElem_fin, Vector.getElem_set, eq_comm]

theorem State.top_eq (k : Fin 16) (h : s.sp.val = k.val + 1) : s.top = s.stackCell k := by
  have e : Fin.ofNat 16 (s.sp.val - 1) = k := by
    apply Fin.ext
    simp only [Fin.ofNat, h, Nat.add_sub_cancel]
    exact Nat.mod_eq_of_lt k.isLt
  unfold State.top; rw [e]

/-! ## The framebuffer -/

@[simp] theorem State.pixel_setPixel (r y : Fin 32) (c z : Fin 64) (on : Bool) :
    (s.setPixel r c on).pixel y z = if y = r ∧ z = c then on else s.pixel y z := by
  simp only [State.pixel, State.setPixel, Fin.getElem_fin, Vector.getElem_set, Fin.ext_iff]
  by_cases h : r.val = y.val
  · simp only [h, if_true, true_and]
    by_cases g : c.val = z.val
    · simp [g]
    · simp [g, Ne.symm g]
  · simp [h, Ne.symm h]

@[simp] theorem State.pixel_clearDisplay (y : Fin 32) (z : Fin 64) : s.clearDisplay.pixel y z = false := by
  simp [State.pixel, State.clearDisplay]

/-! ## The keys -/

/-- No key is found exactly when none is held (R108). -/
theorem State.lowestHeldKey_none : s.lowestHeldKey = none ↔ ∀ k, s.keyHeld k = false := by
  simp [State.lowestHeldKey, List.find?_eq_none]

/-- The key found is held, and no lower key is (R108). -/
theorem State.lowestHeldKey_some {k : KeyNum} (h : s.lowestHeldKey = some k) :
    s.keyHeld k = true ∧ ∀ j, j < k → s.keyHeld j = false := by
  unfold State.lowestHeldKey at h
  refine ⟨List.find?_some h, fun j hj => ?_⟩
  rw [List.find?_eq_some_iff_getElem] at h
  obtain ⟨_, i, hi, hk, hlow⟩ := h
  have e : i = k.val := by simpa using congrArg Fin.val hk
  subst e
  simpa using hlow j.val hj

/-! ## The fault latch -/

theorem State.faulted_eq_false : s.faulted = false ↔ s.fault = .none := by simp [State.faulted]

theorem State.faulted_eq_true : s.faulted = true ↔ s.fault ≠ .none := by simp [State.faulted]

/-! ## Ascending loops -/

/-- What every turn keeps, with the number of turns done so far as a parameter, holds after the loop. -/
theorem forAscending_induct {P : Nat → State → Prop} {n : Nat} {body : Nat → State → State} {s : State}
    (start : P 0 s) (turn : ∀ k t, k < n → P k t → P (k + 1) (body k t)) : P n (forAscending n body s) := by
  induction n with
  | zero => exact start
  | succ n ih => exact turn n _ (Nat.lt_succ_self n) (ih fun k t hk => turn k t (Nat.lt_succ_of_lt hk))

/-- What no turn changes, the loop does not change. -/
theorem forAscending_keeps {α : Type} (f : State → α) {n : Nat} {body : Nat → State → State} {s : State}
    (turn : ∀ k t, f (body k t) = f t) : f (forAscending n body s) = f s :=
  forAscending_induct (P := fun _ t => f t = f s) rfl fun k t _ h => (turn k t).trans h

end Sys2Proof.Machine
end

