-- ==== Sys2Proof/Laws/Display.lean ====
section
/-! SUPPORT. What drawing does, said once per loop: the pixels, the collision flag, and that nothing else changes (44_display.md R101). -/

namespace Sys2Proof.Machine

/-! ## One pixel -/

section
variable (r : Fin 32) (c : Fin 64) (b : Bool) (s : State)

theorem drawPixel_pixel (y : Fin 32) (z : Fin 64) :
    (drawPixel r c b s).pixel y z = if y = r ∧ z = c then s.pixel r c ^^ b else s.pixel y z := by
  unfold drawPixel; split <;> simp

theorem drawPixel_reg (q : RegNum) :
    (drawPixel r c b s).reg q = if q = vf ∧ b = true ∧ s.pixel r c = true then 1 else s.reg q := by
  unfold drawPixel; by_cases h : (b && s.pixel r c) = true
  · rw [if_pos h]; simp only [Bool.and_eq_true] at h; simp [h]
  · rw [if_neg h]; simp only [Bool.and_eq_true] at h; simp [h]

@[simp] theorem drawPixel_pc : (drawPixel r c b s).pc = s.pc := by unfold drawPixel; split <;> rfl
@[simp] theorem drawPixel_stack : (drawPixel r c b s).stack = s.stack := by unfold drawPixel; split <;> rfl
@[simp] theorem drawPixel_sp : (drawPixel r c b s).sp = s.sp := by unfold drawPixel; split <;> rfl
@[simp] theorem drawPixel_i : (drawPixel r c b s).i = s.i := by unfold drawPixel; split <;> rfl
@[simp] theorem drawPixel_dt : (drawPixel r c b s).dt = s.dt := by unfold drawPixel; split <;> rfl
@[simp] theorem drawPixel_st : (drawPixel r c b s).st = s.st := by unfold drawPixel; split <;> rfl
@[simp] theorem drawPixel_keys : (drawPixel r c b s).keys = s.keys := by unfold drawPixel; split <;> rfl
@[simp] theorem drawPixel_mem : (drawPixel r c b s).mem = s.mem := by unfold drawPixel; split <;> rfl
@[simp] theorem drawPixel_fault : (drawPixel r c b s).fault = s.fault := by unfold drawPixel; split <;> rfl
@[simp] theorem drawPixel_draws : (drawPixel r c b s).draws = s.draws := by unfold drawPixel; split <;> rfl

end

/-! ## What drawing keeps -/

section
variable {α : Type} {f : State → α}

theorem drawRow_keeps (h : ∀ r c b t, f (drawPixel r c b t) = f t) (sx : Nat) (r : Fin 32) (row : Byte) (s : State) :
    f (drawRow sx r row s) = f s :=
  forAscending_keeps f fun _ _ => h _ _ _ _

/-- What drawing a pixel keeps, drawing a sprite keeps. -/
theorem drawSprite_keeps (h : ∀ r c b t, f (drawPixel r c b t) = f t) (sx sy base n : Nat) (s : State) :
    f (drawSprite sx sy base n s) = f s :=
  forAscending_keeps f fun _ _ => drawRow_keeps h _ _ _ _

end

section
variable (sx sy base n : Nat) (s : State)

@[simp] theorem drawSprite_pc : (drawSprite sx sy base n s).pc = s.pc := drawSprite_keeps (f := State.pc) (by simp) ..
@[simp] theorem drawSprite_stack : (drawSprite sx sy base n s).stack = s.stack :=
  drawSprite_keeps (f := State.stack) (by simp) ..
@[simp] theorem drawSprite_sp : (drawSprite sx sy base n s).sp = s.sp := drawSprite_keeps (f := State.sp) (by simp) ..
@[simp] theorem drawSprite_i : (drawSprite sx sy base n s).i = s.i := drawSprite_keeps (f := State.i) (by simp) ..
@[simp] theorem drawSprite_dt : (drawSprite sx sy base n s).dt = s.dt := drawSprite_keeps (f := State.dt) (by simp) ..
@[simp] theorem drawSprite_st : (drawSprite sx sy base n s).st = s.st := drawSprite_keeps (f := State.st) (by simp) ..
@[simp] theorem drawSprite_keys : (drawSprite sx sy base n s).keys = s.keys :=
  drawSprite_keeps (f := State.keys) (by simp) ..
@[simp] theorem drawSprite_mem : (drawSprite sx sy base n s).mem = s.mem := drawSprite_keeps (f := State.mem) (by simp) ..
@[simp] theorem drawSprite_fault : (drawSprite sx sy base n s).fault = s.fault :=
  drawSprite_keeps (f := State.fault) (by simp) ..
@[simp] theorem drawSprite_draws : (drawSprite sx sy base n s).draws = s.draws :=
  drawSprite_keeps (f := State.draws) (by simp) ..

/-- Drawing writes no register but `VF`. -/
theorem drawSprite_reg_ne {q : RegNum} (h : q ≠ vf) : (drawSprite sx sy base n s).reg q = s.reg q :=
  drawSprite_keeps (f := fun t => t.reg q) (fun r c b t => by simp [drawPixel_reg, h]) ..

end

/-! ## The pixels of a row -/

theorem screenColumn_inj {sx a b : Nat} (ha : a < 8) (hb : b < 8) (h : screenColumn (sx + a) = screenColumn (sx + b)) :
    a = b := by
  have : (sx + a) % 64 = (sx + b) % 64 := by simpa [screenColumn, Fin.ext_iff, Fin.ofNat] using h
  omega

theorem screenRow_inj {sy a b : Nat} (ha : a < 16) (hb : b < 16) (h : screenRow (sy + a) = screenRow (sy + b)) :
    a = b := by
  have : (sy + a) % 32 = (sy + b) % 32 := by simpa [screenRow, Fin.ext_iff, Fin.ofNat] using h
  omega

/-- The first `k` pixels of a sprite row have a 1 at column `z`. -/
def RowCovers (sx : Nat) (row : Byte) (k : Nat) (z : Fin 64) : Prop :=
  ∃ bit, bit < k ∧ z = screenColumn (sx + bit) ∧ spriteBit row bit = true

/-- The first `k` pixels of a sprite row hit an on pixel of screen row `r`. -/
def RowHits (sx : Nat) (r : Fin 32) (row : Byte) (k : Nat) (s : State) : Prop :=
  ∃ bit, bit < k ∧ spriteBit row bit = true ∧ s.pixel r (screenColumn (sx + bit)) = true

theorem RowCovers_succ {sx : Nat} {row : Byte} {k : Nat} {z : Fin 64} :
    RowCovers sx row (k + 1) z ↔ RowCovers sx row k z ∨ (z = screenColumn (sx + k) ∧ spriteBit row k = true) := by
  simp only [RowCovers, Nat.lt_succ_iff_lt_or_eq, or_and_right, exists_or, exists_eq_left]

theorem RowHits_succ {sx : Nat} {r : Fin 32} {row : Byte} {k : Nat} {s : State} :
    RowHits sx r row (k + 1) s ↔
      RowHits sx r row k s ∨ (spriteBit row k = true ∧ s.pixel r (screenColumn (sx + k)) = true) := by
  simp only [RowHits, Nat.lt_succ_iff_lt_or_eq, or_and_right, exists_or, exists_eq_left]

theorem not_RowCovers_at {sx : Nat} {row : Byte} {k : Nat} (hk : k < 8) :
    ¬ RowCovers sx row k (screenColumn (sx + k)) := fun ⟨bit, hb, hz, _⟩ =>
  absurd (screenColumn_inj hk (by omega) hz) (by omega)

open Classical in
/-- Drawing a row toggles the pixels its 1 bits cover, and sets `VF` if one of them was on (R101). -/
theorem drawRow_effect (sx : Nat) (r : Fin 32) (row : Byte) (s : State) :
    (∀ y z, (drawRow sx r row s).pixel y z = (s.pixel y z ^^ decide (y = r ∧ RowCovers sx row 8 z))) ∧
    (drawRow sx r row s).reg vf = if RowHits sx r row 8 s then 1 else s.reg vf := by
  refine forAscending_induct (P := fun k t =>
    (∀ y z, t.pixel y z = (s.pixel y z ^^ decide (y = r ∧ RowCovers sx row k z))) ∧
    t.reg vf = if RowHits sx r row k s then 1 else s.reg vf) ?_ ?_
  · simp [RowCovers, RowHits]
  · intro k t hk ⟨hp, hv⟩
    have here : t.pixel r (screenColumn (sx + k)) = s.pixel r (screenColumn (sx + k)) := by
      rw [hp]; simp [not_RowCovers_at hk]
    refine ⟨fun y z => ?_, ?_⟩
    · rw [drawPixel_pixel, RowCovers_succ]
      by_cases h : y = r ∧ z = screenColumn (sx + k)
      · obtain ⟨rfl, rfl⟩ := h
        simp [here, not_RowCovers_at hk]
      · rw [if_neg h, hp]
        congr 1
        by_cases hy : y = r
        · simp only [hy, true_and] at h ⊢
          simp [h]
        · simp [hy]
    · rw [drawPixel_reg, here, hv, RowHits_succ]
      by_cases h1 : RowHits sx r row k s
      · simp [h1]
      · simp [h1]

/-! ## The pixels of a sprite -/

/-- The first `n` rows of the sprite at `base` have a 1 at row `y`, column `z` of the screen. -/
def SpriteCovers (sx sy base n : Nat) (s : State) (y : Fin 32) (z : Fin 64) : Prop :=
  ∃ row, row < n ∧ y = screenRow (sy + row) ∧ RowCovers sx (s.memRead (base + row)) 8 z

/-- The first `n` rows of the sprite at `base` hit an on pixel. -/
def SpriteHits (sx sy base n : Nat) (s : State) : Prop :=
  ∃ row, row < n ∧ RowHits sx (screenRow (sy + row)) (s.memRead (base + row)) 8 s

theorem SpriteCovers_succ {sx sy base n : Nat} {s : State} {y : Fin 32} {z : Fin 64} :
    SpriteCovers sx sy base (n + 1) s y z ↔
      SpriteCovers sx sy base n s y z ∨ (y = screenRow (sy + n) ∧ RowCovers sx (s.memRead (base + n)) 8 z) := by
  simp only [SpriteCovers, Nat.lt_succ_iff_lt_or_eq, or_and_right, exists_or, exists_eq_left]

theorem SpriteHits_succ {sx sy base n : Nat} {s : State} :
    SpriteHits sx sy base (n + 1) s ↔
      SpriteHits sx sy base n s ∨ RowHits sx (screenRow (sy + n)) (s.memRead (base + n)) 8 s := by
  simp only [SpriteHits, Nat.lt_succ_iff_lt_or_eq, or_and_right, exists_or, exists_eq_left]

open Classical in
/-- Drawing a sprite of at most 15 rows toggles the pixels its 1 bits cover, and sets `VF` if one of them was on (R101). -/
theorem drawSprite_effect (sx sy base n : Nat) (hn : n < 16) (s : State) :
    (∀ y z, (drawSprite sx sy base n s).pixel y z = (s.pixel y z ^^ decide (SpriteCovers sx sy base n s y z))) ∧
    (drawSprite sx sy base n s).reg vf = if SpriteHits sx sy base n s then 1 else s.reg vf := by
  have key := forAscending_induct (n := n) (s := s)
    (body := fun row t => drawRow sx (screenRow (sy + row)) (t.memRead (base + row)) t)
    (P := fun k t =>
      t.mem = s.mem ∧
      (∀ y z, t.pixel y z = (s.pixel y z ^^ decide (SpriteCovers sx sy base k s y z))) ∧
      t.reg vf = if SpriteHits sx sy base k s then 1 else s.reg vf) ?_ ?_
  · exact key.2
  · simp [SpriteCovers, SpriteHits]
  · intro k t hk ⟨hm, hp, hv⟩
    have read : t.memRead (base + k) = s.memRead (base + k) := by unfold State.memRead; rw [hm]
    have fresh : ∀ z, ¬ SpriteCovers sx sy base k s (screenRow (sy + k)) z := fun z ⟨row, hr, hy, _⟩ =>
      absurd (screenRow_inj (by omega) (by omega) hy) (by omega)
    have here : ∀ z, t.pixel (screenRow (sy + k)) z = s.pixel (screenRow (sy + k)) z := fun z => by
      rw [hp]; simp [fresh z]
    obtain ⟨ep, ev⟩ := drawRow_effect sx (screenRow (sy + k)) (t.memRead (base + k)) t
    refine ⟨(drawRow_keeps (f := State.mem) (by simp) ..).trans hm, fun y z => ?_, ?_⟩
    · rw [ep, SpriteCovers_succ, read]
      by_cases hy : y = screenRow (sy + k)
      · subst hy; simp [here, fresh]
      · rw [hp]; simp [hy]
    · have hits : RowHits sx (screenRow (sy + k)) (t.memRead (base + k)) 8 t ↔
          RowHits sx (screenRow (sy + k)) (s.memRead (base + k)) 8 s := by
        simp only [RowHits, here, read]
      rw [ev, hv, SpriteHits_succ]
      simp only [hits]
      by_cases h1 : SpriteHits sx sy base k s <;>
        by_cases h2 : RowHits sx (screenRow (sy + k)) (s.memRead (base + k)) 8 s <;> simp [h1, h2]

end Sys2Proof.Machine
end

