-- ==== Sys2Proof/Laws/IndexMemory.lean ====
section
/-! SUPPORT. What the register-block transfers do, said once per loop (43_index_memory.md R98, R99), and that distinct offsets below 4096 from one base address distinct bytes. -/

namespace Sys2Proof.Machine

theorem indexAddr_inj {s : State} {j k : Nat} (hj : j < 4096) (hk : k < 4096)
    (h : reduceAddr (indexAddr s j) = reduceAddr (indexAddr s k)) : j = k := by
  unfold reduceAddr indexAddr at h; omega

/-! ## `LD [I], Vx` -/

section
variable (n : Nat) (s : State)

@[simp] theorem storeLoop_v : (forAscending n storeOneReg s).v = s.v := forAscending_keeps State.v fun _ _ => rfl
@[simp] theorem storeLoop_pc : (forAscending n storeOneReg s).pc = s.pc := forAscending_keeps State.pc fun _ _ => rfl
@[simp] theorem storeLoop_stack : (forAscending n storeOneReg s).stack = s.stack :=
  forAscending_keeps State.stack fun _ _ => rfl
@[simp] theorem storeLoop_sp : (forAscending n storeOneReg s).sp = s.sp := forAscending_keeps State.sp fun _ _ => rfl
@[simp] theorem storeLoop_i : (forAscending n storeOneReg s).i = s.i := forAscending_keeps State.i fun _ _ => rfl
@[simp] theorem storeLoop_dt : (forAscending n storeOneReg s).dt = s.dt := forAscending_keeps State.dt fun _ _ => rfl
@[simp] theorem storeLoop_st : (forAscending n storeOneReg s).st = s.st := forAscending_keeps State.st fun _ _ => rfl
@[simp] theorem storeLoop_fb : (forAscending n storeOneReg s).fb = s.fb := forAscending_keeps State.fb fun _ _ => rfl
@[simp] theorem storeLoop_keys : (forAscending n storeOneReg s).keys = s.keys :=
  forAscending_keeps State.keys fun _ _ => rfl
@[simp] theorem storeLoop_fault : (forAscending n storeOneReg s).fault = s.fault :=
  forAscending_keeps State.fault fun _ _ => rfl
@[simp] theorem storeLoop_draws : (forAscending n storeOneReg s).draws = s.draws :=
  forAscending_keeps State.draws fun _ _ => rfl

theorem storeLoop_wf (h : Memory.wf s.mem) : Memory.wf (forAscending n storeOneReg s).mem :=
  forAscending_induct (P := fun _ t => Memory.wf t.mem) h fun _ _ _ ht => State.wf_memWrite _ _ ht

end

/-- After the first `n` turns byte `I + k` holds `V[k]` for each `k` below `n`, and every other byte is as before (R98). -/
theorem storeLoop_memRead (n : Nat) (hn : n ≤ 16) (s : State) :
    (∀ k, k < n → (forAscending n storeOneReg s).memRead (indexAddr s k) = s.reg (Fin.ofNat 16 k)) ∧
    ∀ a, (∀ k, k < n → reduceAddr a ≠ reduceAddr (indexAddr s k)) →
      (forAscending n storeOneReg s).memRead a = s.memRead a := by
  have key := forAscending_induct (n := n) (s := s) (body := storeOneReg) (P := fun m t => m ≤ 16 →
    t.v = s.v ∧ t.i = s.i ∧
    (∀ k, k < m → t.memRead (indexAddr s k) = s.reg (Fin.ofNat 16 k)) ∧
    ∀ a, (∀ k, k < m → reduceAddr a ≠ reduceAddr (indexAddr s k)) → t.memRead a = s.memRead a) ?_ ?_
  · exact (key hn).2.2
  · exact fun _ => ⟨rfl, rfl, by simp, fun _ _ => rfl⟩
  · intro m t _ ht hm
    obtain ⟨hv, hi, hin, hout⟩ := ht (by omega)
    have addr : indexAddr t m = indexAddr s m := by unfold indexAddr; rw [hi]
    have val : t.reg (Fin.ofNat 16 m) = s.reg (Fin.ofNat 16 m) := by unfold State.reg; rw [hv]
    refine ⟨hv, hi, fun k hk => ?_, fun a ha => ?_⟩
    · unfold storeOneReg
      rw [State.memRead_memWrite, addr, val]
      split
      · next e => rw [indexAddr_inj (by omega) (by omega) e]
      · next e =>
        have : k ≠ m := fun h => e (h ▸ rfl)
        exact hin k (by omega)
    · unfold storeOneReg
      rw [State.memRead_memWrite_ne _ _ (addr ▸ ha m (Nat.lt_succ_self m))]
      exact hout a fun k hk => ha k (by omega)

/-! ## `LD Vx, [I]` -/

section
variable (n : Nat) (s : State)

@[simp] theorem loadLoop_pc : (forAscending n loadOneReg s).pc = s.pc := forAscending_keeps State.pc fun _ _ => rfl
@[simp] theorem loadLoop_stack : (forAscending n loadOneReg s).stack = s.stack :=
  forAscending_keeps State.stack fun _ _ => rfl
@[simp] theorem loadLoop_sp : (forAscending n loadOneReg s).sp = s.sp := forAscending_keeps State.sp fun _ _ => rfl
@[simp] theorem loadLoop_i : (forAscending n loadOneReg s).i = s.i := forAscending_keeps State.i fun _ _ => rfl
@[simp] theorem loadLoop_dt : (forAscending n loadOneReg s).dt = s.dt := forAscending_keeps State.dt fun _ _ => rfl
@[simp] theorem loadLoop_st : (forAscending n loadOneReg s).st = s.st := forAscending_keeps State.st fun _ _ => rfl
@[simp] theorem loadLoop_fb : (forAscending n loadOneReg s).fb = s.fb := forAscending_keeps State.fb fun _ _ => rfl
@[simp] theorem loadLoop_keys : (forAscending n loadOneReg s).keys = s.keys :=
  forAscending_keeps State.keys fun _ _ => rfl
@[simp] theorem loadLoop_mem : (forAscending n loadOneReg s).mem = s.mem := forAscending_keeps State.mem fun _ _ => rfl
@[simp] theorem loadLoop_fault : (forAscending n loadOneReg s).fault = s.fault :=
  forAscending_keeps State.fault fun _ _ => rfl
@[simp] theorem loadLoop_draws : (forAscending n loadOneReg s).draws = s.draws :=
  forAscending_keeps State.draws fun _ _ => rfl

end

/-- After the first `n` turns `V[q]` holds byte `I + q` for each `q` below `n`, and every other register is as before (R99). -/
theorem loadLoop_reg (n : Nat) (hn : n ≤ 16) (s : State) (q : RegNum) :
    (forAscending n loadOneReg s).reg q = if q.val < n then s.memRead (indexAddr s q.val) else s.reg q := by
  have key := forAscending_induct (n := n) (s := s) (body := loadOneReg) (P := fun m t => m ≤ 16 →
    t.mem = s.mem ∧ t.i = s.i ∧
    ∀ q : RegNum, t.reg q = if q.val < m then s.memRead (indexAddr s q.val) else s.reg q) ?_ ?_
  · exact (key hn).2.2 q
  · exact fun _ => ⟨rfl, rfl, by simp⟩
  · intro m t _ ht hm
    obtain ⟨hmem, hi, hq⟩ := ht (by omega)
    have read : t.memRead (indexAddr t m) = s.memRead (indexAddr s m) := by
      unfold State.memRead indexAddr; rw [hmem, hi]
    refine ⟨hmem, hi, fun q => ?_⟩
    have number : q = Fin.ofNat 16 m ↔ q.val = m := by
      rw [Fin.ext_iff]; simp only [Fin.ofNat]; rw [Nat.mod_eq_of_lt (by omega)]
    unfold loadOneReg
    rw [State.reg_setReg, read, hq]
    by_cases e : q.val = m
    · rw [if_pos (number.mpr e), if_pos (by omega), e]
    · rw [if_neg (e ∘ number.mp)]; by_cases l : q.val < m
      · rw [if_pos l, if_pos (by omega)]
      · rw [if_neg l, if_neg (by omega)]

end Sys2Proof.Machine
end

