-- ==== Sys2Proof/Laws/Host.lean ====
section
/-! SUPPORT. What fetch, the step and the host operations do, said once each (40_step_cycle.md R59, 46_host_operations.md). -/

namespace Sys2Proof.Machine

/-! ## Fetch and step -/

/-- A fetch depends on `PC` and memory alone (R59). -/
theorem fetchWord_congr {s t : State} (pc : t.pc = s.pc) (mem : t.mem = s.mem) : fetchWord t = fetchWord s := by
  unfold fetchWord State.memRead2 State.memRead; rw [pc, mem]

theorem fetched_congr {s t : State} (pc : t.pc = s.pc) (mem : t.mem = s.mem) : fetched t = fetched s := by
  unfold fetched; rw [fetchWord_congr pc mem]

/-- The two bytes that `placeWord` stores are the word that the next fetch reads (R36, R46). -/
theorem fetchWord_placeWord (s : State) (w : Word) : fetchWord (placeWord s w) = w := by
  have hi : (placeWord s w).memRead s.pc.toNat = highByte w := by
    unfold placeWord
    rw [State.memRead_memWrite_ne, State.memRead_memWrite_same]
    unfold reduceAddr; omega
  have lo : (placeWord s w).memRead (s.pc.toNat + 1) = lowByte w := State.memRead_memWrite_same ..
  have pc : (placeWord s w).pc = s.pc := rfl
  unfold fetchWord State.memRead2
  rw [pc, hi, lo, highByte_append_lowByte]

theorem step_faulted {s : State} (h : s.fault ≠ .none) : step s = .next s := by
  unfold step; rw [if_pos (s.faulted_eq_true.mpr h)]; rfl

theorem step_instr {s : State} {i : Instr} (h : s.fault = .none) (f : fetched s = .ok i) :
    step s = exec i s.advancePc := by
  unfold step; rw [if_neg (by simp [State.faulted, h]), f]

theorem step_unrecognized {s : State} {why : DecodeReject} (h : s.fault = .none) (f : fetched s = .error why) :
    step s = .next s.advancePc := by
  unfold step; rw [if_neg (by simp [State.faulted, h]), f]; rfl

/-- All that a step can be: the identity of a faulted machine, an instruction, or the no-op of an unrecognized word (R59). -/
theorem step_cases (s : State) :
    (s.fault ≠ .none ∧ step s = .next s) ∨
    (s.fault = .none ∧ ∃ i, fetched s = .ok i ∧ step s = exec i s.advancePc) ∨
    (s.fault = .none ∧ ∃ why, fetched s = .error why ∧ step s = .next s.advancePc) := by
  by_cases h : s.fault = .none
  · cases f : fetched s with
    | ok i => exact .inr (.inl ⟨h, i, rfl, step_instr h f⟩)
    | error why => exact .inr (.inr ⟨h, why, rfl, step_unrecognized h f⟩)
  · exact .inl ⟨h, step_faulted h⟩

/-! ## A step with a given draw, and runs -/

theorem stepWith_faulted {s : State} (r : Byte) (h : s.fault ≠ .none) : stepWith r s = .next s := by
  unfold stepWith; rw [if_pos (s.faulted_eq_true.mpr h)]; rfl

theorem stepWith_rnd {s : State} {x : RegNum} {nn : Byte} (r : Byte) (h : s.fault = .none)
    (f : fetched s = .ok (.rnd x nn)) : stepWith r s = .next (randomInto r x nn s.advancePc.consumeDraw) := by
  unfold stepWith; rw [if_neg (by simp [State.faulted, h]), f]

/-- All that a step with a given draw can be: a running machine's `RND` with that draw, or the step itself (R111, R117). -/
theorem stepWith_cases (r : Byte) (s : State) :
    (s.fault = .none ∧ ∃ x nn, fetched s = .ok (.rnd x nn) ∧
      stepWith r s = .next (randomInto r x nn s.advancePc.consumeDraw)) ∨
    ((s.fault = .none → ∀ x nn, fetched s ≠ .ok (.rnd x nn)) ∧ stepWith r s = step s) := by
  by_cases h : s.fault = .none
  · by_cases g : ∃ x nn, fetched s = .ok (.rnd x nn)
    · obtain ⟨x, nn, f⟩ := g
      exact .inl ⟨h, x, nn, f, stepWith_rnd r h f⟩
    · refine .inr ⟨fun _ x nn f => g ⟨x, nn, f⟩, ?_⟩
      unfold stepWith
      rw [if_neg (by simp [State.faulted, h])]
      split
      · next x nn f => exact absurd ⟨x, nn, f⟩ g
      · rfl
  · exact .inr ⟨fun e => absurd e h, by rw [stepWith_faulted r h, step_faulted h]⟩

/-- One operation more at the end of a run. -/
theorem runOps_append_one (ops : List HostOp) (op : HostOp) (s t : State) (h : runOps ops s = .next t) :
    runOps (ops ++ [op]) s = perform op t := by
  induction ops generalizing s with
  | nil =>
    cases h
    cases e : perform op t <;> simp [runOps, e]
  | cons o rest ih =>
    simp only [List.cons_append, runOps] at h ⊢
    cases e : perform o s with
    | next u => rw [e] at h; exact ih u h
    | fault f => rw [e] at h; cases h
    | refused r => rw [e] at h; cases h

/-- The first `n + 1` operations of an infinite sequence are the first `n` and then operation `n` (R111). -/
theorem runFirst_succ (ops : Nat → HostOp) (n : Nat) (s t : State) (h : runFirst ops n s = .next t) :
    runFirst ops (n + 1) s = perform (ops n) t := by
  unfold runFirst at h ⊢
  rw [List.range_succ, List.map_append, List.map_singleton]
  exact runOps_append_one _ _ _ _ h

/-! ## Installing a program image -/

section
variable (a : Nat) (bytes : List Byte) (s : State)

/-- What no write to memory changes, installing an image does not change. -/
theorem installFrom_keeps {α : Type} (f : State → α) (h : ∀ a x t, f (t.memWrite a x) = f t) :
    f (installFrom a bytes s) = f s := by
  induction bytes generalizing a s with
  | nil => rfl
  | cons b rest ih => exact (ih (a + 1) (s.memWrite a b)).trans (h a b s)

theorem installFrom_wf (h : Memory.wf s.mem) : Memory.wf (installFrom a bytes s).mem := by
  induction bytes generalizing a s with
  | nil => exact h
  | cons b rest ih => exact ih (a + 1) (s.memWrite a b) (State.wf_memWrite a b h)

/-- An image that ends inside memory is copied byte by byte, and every other byte is as before (R114). -/
theorem installFrom_memRead (fits : a + bytes.length ≤ 4096) (c : Nat) :
    (installFrom a bytes s).memRead c =
      if a ≤ reduceAddr c ∧ reduceAddr c < a + bytes.length then bytes.getD (reduceAddr c - a) 0 else s.memRead c := by
  induction bytes generalizing a s with
  | nil => rw [if_neg (by simp only [List.length_nil]; omega)]; rfl
  | cons b rest ih =>
    simp only [List.length_cons] at fits ⊢
    unfold installFrom
    rw [ih (a + 1) (s.memWrite a b) (by omega), State.memRead_memWrite]
    have ra : reduceAddr a = a := Nat.mod_eq_of_lt (by omega)
    rw [ra]
    by_cases e : reduceAddr c = a
    · rw [if_neg (by omega), if_pos e, if_pos (by omega), e, Nat.sub_self]; rfl
    · rw [if_neg e]
      by_cases l : a + 1 ≤ reduceAddr c ∧ reduceAddr c < a + 1 + rest.length
      · rw [if_pos l, if_pos (by omega)]
        have : reduceAddr c - a = reduceAddr c - (a + 1) + 1 := by omega
        rw [this, List.getD_cons_succ]
      · rw [if_neg l, if_neg (by omega)]

end

/-! ## The timers -/

/-- A tick takes one from a timer and stops at 0 (R104). -/
theorem timerTick_toNat (t : Byte) : (timerTick t).toNat = t.toNat - 1 := by
  unfold timerTick; split
  · rw [BitVec.toNat_sub]; have := t.isLt; simp; omega
  · omega

end Sys2Proof.Machine
end

