-- ==== Sys2Proof/Laws/PerInstr.lean ====
section
/-! SUPPORT. The per-instruction family MapRow: the word of every well-formed instruction satisfies the instruction's own row of the opcode map (30_encoding.md R52). -/

namespace Sys2Proof.Laws.MapRow

/-- The row of R52 with the instruction's number. -/
def rowOf (i : Instr) : OpcodeRow := opcodeMap.getD (i.row - 1) ⟨0, 0, 0⟩

/-- The row numbered for the instruction is in the map under that number, and the instruction's word satisfies it. -/
def Statement (i : Instr) : Prop :=
  i.wellFormed = true → (rowOf i).order = i.row ∧ encode i &&& (rowOf i).mask = (rowOf i).bits

theorem of_nnn {w : Word} {f : Nibble} {addr : Addr} (h : w = wordNNN f addr) : w &&& 0xF000#16 = wordNNN f 0 := by
  rw [and_maskFam, h, fieldFam_wordNNN]

theorem of_xnn {w : Word} {f : Nibble} {x : RegNum} {nn : Byte} (h : w = wordXNN f x nn) :
    w &&& 0xF000#16 = wordNNN f 0 := by
  rw [and_maskFam, h, fieldFam_wordXNN]

theorem of_xss {w : Word} {f : Nibble} {x : RegNum} {nn : Byte} (h : w = wordXNN f x nn) :
    w &&& 0xF0FF#16 = wordXNN f 0 nn := by
  rw [and_maskFamNN, h, fieldFam_wordXNN, fieldNN_wordXNN]

theorem of_xy {w : Word} {f n : Nibble} {x y : RegNum} (h : w = wordXYN f x y n) :
    w &&& 0xF00F#16 = wordXYN f 0 0 n := by
  rw [and_maskFamN, h, fieldFam_wordXYN, fieldN_wordXYN]

theorem of_xyn {w : Word} {f n : Nibble} {x y : RegNum} (h : w = wordXYN f x y n) : w &&& 0xF000#16 = wordNNN f 0 := by
  rw [and_maskFam, h, fieldFam_wordXYN]

theorem cls : Statement .cls := fun _ => ⟨rfl, by decide⟩

theorem ret : Statement .ret := fun _ => ⟨rfl, by decide⟩

theorem sys (addr : Addr) : Statement (.sys addr) := fun _ => ⟨rfl, of_nnn rfl⟩

theorem jp (addr : Addr) : Statement (.jp addr) := fun _ => ⟨rfl, of_nnn rfl⟩

theorem call (addr : Addr) : Statement (.call addr) := fun _ => ⟨rfl, of_nnn rfl⟩

theorem seImm (x : RegNum) (nn : Byte) : Statement (.seImm x nn) := fun _ => ⟨rfl, of_xnn rfl⟩

theorem sneImm (x : RegNum) (nn : Byte) : Statement (.sneImm x nn) := fun _ => ⟨rfl, of_xnn rfl⟩

theorem seReg (x y : RegNum) : Statement (.seReg x y) := fun _ => ⟨rfl, of_xy rfl⟩

theorem ldImm (x : RegNum) (nn : Byte) : Statement (.ldImm x nn) := fun _ => ⟨rfl, of_xnn rfl⟩

theorem addImm (x : RegNum) (nn : Byte) : Statement (.addImm x nn) := fun _ => ⟨rfl, of_xnn rfl⟩

theorem ldReg (x y : RegNum) : Statement (.ldReg x y) := fun _ => ⟨rfl, of_xy rfl⟩

theorem orReg (x y : RegNum) : Statement (.orReg x y) := fun _ => ⟨rfl, of_xy rfl⟩

theorem andReg (x y : RegNum) : Statement (.andReg x y) := fun _ => ⟨rfl, of_xy rfl⟩

theorem xorReg (x y : RegNum) : Statement (.xorReg x y) := fun _ => ⟨rfl, of_xy rfl⟩

theorem addReg (x y : RegNum) : Statement (.addReg x y) := fun _ => ⟨rfl, of_xy rfl⟩

theorem subReg (x y : RegNum) : Statement (.subReg x y) := fun _ => ⟨rfl, of_xy rfl⟩

theorem shr (x y : RegNum) : Statement (.shr x y) := fun _ => ⟨rfl, of_xy rfl⟩

theorem subnReg (x y : RegNum) : Statement (.subnReg x y) := fun _ => ⟨rfl, of_xy rfl⟩

theorem shl (x y : RegNum) : Statement (.shl x y) := fun _ => ⟨rfl, of_xy rfl⟩

theorem sneReg (x y : RegNum) : Statement (.sneReg x y) := fun _ => ⟨rfl, of_xy rfl⟩

theorem ldI (addr : Addr) : Statement (.ldI addr) := fun _ => ⟨rfl, of_nnn rfl⟩

theorem jpV0 (addr : Addr) : Statement (.jpV0 addr) := fun _ => ⟨rfl, of_nnn rfl⟩

theorem rnd (x : RegNum) (nn : Byte) : Statement (.rnd x nn) := fun _ => ⟨rfl, of_xnn rfl⟩

theorem drw (x y : RegNum) (n : Fin 16) : Statement (.drw x y n) := fun _ => ⟨rfl, of_xyn rfl⟩

theorem skp (x : RegNum) : Statement (.skp x) := fun _ => ⟨rfl, of_xss rfl⟩

theorem sknp (x : RegNum) : Statement (.sknp x) := fun _ => ⟨rfl, of_xss rfl⟩

theorem ldVxDt (x : RegNum) : Statement (.ldVxDt x) := fun _ => ⟨rfl, of_xss rfl⟩

theorem ldVxK (x : RegNum) : Statement (.ldVxK x) := fun _ => ⟨rfl, of_xss rfl⟩

theorem ldDtVx (x : RegNum) : Statement (.ldDtVx x) := fun _ => ⟨rfl, of_xss rfl⟩

theorem ldStVx (x : RegNum) : Statement (.ldStVx x) := fun _ => ⟨rfl, of_xss rfl⟩

theorem addI (x : RegNum) : Statement (.addI x) := fun _ => ⟨rfl, of_xss rfl⟩

theorem ldF (x : RegNum) : Statement (.ldF x) := fun _ => ⟨rfl, of_xss rfl⟩

theorem ldB (x : RegNum) : Statement (.ldB x) := fun _ => ⟨rfl, of_xss rfl⟩

theorem storeRegs (x : RegNum) : Statement (.storeRegs x) := fun _ => ⟨rfl, of_xss rfl⟩

theorem loadRegs (x : RegNum) : Statement (.loadRegs x) := fun _ => ⟨rfl, of_xss rfl⟩

end Sys2Proof.Laws.MapRow
end

