-- ==== Sys2Proof/Laws/Safety.lean ====
section
/-! SUPPORT. What the shared operations leave unchanged, said with `Frame`, and how frames compose. -/

namespace Sys2Proof.Machine

theorem Frame.refl (w : Footprint) (s : State) : Frame w s s := by simp [Frame]

theorem Frame.trans {w : Footprint} {s t u : State} (h : Frame w s t) (g : Frame w t u) : Frame w s u := by
  obtain ⟨h1, h2, h3, h4, h5, h6, h7, h8, h9, h10, h11⟩ := h
  obtain ⟨g1, g2, g3, g4, g5, g6, g7, g8, g9, g10, g11⟩ := g
  exact ⟨fun r e => (g1 r e).trans (h1 r e), fun e => (g2 e).trans (h2 e),
    fun e => ⟨(g3 e).1.trans (h3 e).1, fun k => ((g3 e).2 k).trans ((h3 e).2 k)⟩, fun e => (g4 e).trans (h4 e),
    fun e => (g5 e).trans (h5 e), fun e => (g6 e).trans (h6 e), fun e r c => (g7 e r c).trans (h7 e r c),
    fun k => (g8 k).trans (h8 k), fun a e => (g9 a e).trans (h9 a e), fun e => (g10 e).trans (h10 e),
    fun e => (g11 e).trans (h11 e)⟩

theorem frame_skipIf (s : State) (p : Bool) : Frame { pc := true } s (s.skipIf p) := by
  unfold State.skipIf; split <;> simp [Frame]

theorem frame_setFlagThenResult (x : RegNum) (flag result : Byte) (s : State) :
    Frame { regs := [vf, x] } s (setFlagThenResult x flag result s) := by
  simp only [setFlagThenResult, Frame, State.reg_setReg, List.mem_cons, List.not_mem_nil, or_false, not_or]
  exact ⟨fun r h => by simp [h], by simp⟩

theorem frame_drawSprite (sx sy base n : Nat) (s : State) :
    Frame { regs := [vf], fb := true } s (drawSprite sx sy base n s) :=
  ⟨fun _ h => drawSprite_reg_ne _ _ _ _ _ (by simpa using h), by simp, by simp [State.stackCell], by simp, by simp, by simp,
    by simp, by simp [State.keyHeld], by simp [State.memRead], by simp, by simp⟩

theorem frame_storeLoop (n : Nat) (hn : n ≤ 16) (s : State) :
    Frame { mem := indexRange s n } s (forAscending n storeOneReg s) :=
  ⟨by simp [State.reg], by simp, by simp [State.stackCell], by simp, by simp, by simp, by simp [State.pixel],
    by simp [State.keyHeld],
    fun a ha => (storeLoop_memRead n hn s).2 a fun k hk e => ha (List.mem_map.mpr ⟨k, List.mem_range.mpr hk, e.symm⟩),
    by simp, by simp⟩

theorem frame_loadLoop (n : Nat) (hn : n ≤ 16) (s : State) {w : List RegNum} (h : ∀ r : RegNum, r ∉ w → ¬ r.val < n) :
    Frame { regs := w } s (forAscending n loadOneReg s) :=
  ⟨fun r hr => by rw [loadLoop_reg n hn, if_neg (h r hr)], by simp, by simp [State.stackCell], by simp, by simp, by simp,
    by simp [State.pixel], by simp [State.keyHeld], by simp [State.memRead], by simp, by simp⟩

theorem frame_tickTimers (s : State) : Frame { dt := true, st := true } s (tickTimers s) := by
  unfold tickTimers; split <;> simp [Frame]

/-- A fault undoes the advance of the step that raises it: all that is left is the latch (R124). -/
theorem raiseFault_advancePc (c : FaultLatch) (s : State) : raiseFault c s.advancePc = { s with fault := c } := by
  cases s; simp [raiseFault, State.advancePc, State.rewindPc, State.setPc, State.setFault]

end Sys2Proof.Machine
end

