-- ==== Sys2Proof/Tests/Slice0.lean ====
section
/-! SUPPORT. Small tests, and for every statement with hypotheses a state and operands that meet them. Words are written out from the patterns of 30_encoding.md R52; expected results are the vectors of 95_test_vectors.md, whose start state is the reset state with both open timer parameters at 60. -/

namespace Sys2Proof.Tests

open Sys2Proof Sys2Proof.Machine

/-- The start state of the vectors. -/
def start : State := State.resetWith 60 60

/-- The vectors' state with the word where the next step fetches it. -/
def at0 (w : Nat) (s : State := start) : State := s.withFetchWord 16 w

/-- What one step of that word leaves, seen through `f`. -/
def sees {α : Type} (w : Nat) (s : State) (f : State → α) : Option α :=
  match step (at0 w s) with
  | .next t => some (f t)
  | _ => none

/-- `start` with the registers `V[r] = x` of a list. -/
def regs (l : List (RegNum × Byte)) (s : State := start) : State := l.foldl (fun t p => t.setReg p.1 p.2) s

/-- A state with the bytes of a list from address `a` upward. -/
def bytes (a : Nat) (l : List Byte) (s : State := start) : State := installFrom a l s

/-- A state with `n` entries on its stack, cell `k` holding `cell`. -/
def depth (n : Fin 17) (cell : Word := 0x0206) (s : State := start) : State :=
  { s with sp := n, stack := Vector.replicate 16 cell }

/-- Some pixels of a state. -/
def pixels (l : List (Fin 32 × Fin 64)) (s : State) : List Bool := l.map fun p => s.pixel p.1 p.2

/-- `V[x]` and `VF`. -/
def withFlag (x : RegNum) (s : State) : Byte × Byte := (s.reg x, s.reg vf)

/-- The `n` bytes from address `a` upward. -/
def memFrom (a n : Nat) (s : State) : List Byte := (List.range n).map fun k => s.memRead (a + k)

/-! ## Well-formedness -/

theorem test_wellFormed_refuses_sys_that_is_cls : (Instr.sys 0x0E0).wellFormed = false := by decide
theorem test_wellFormed_refuses_sys_that_is_ret : (Instr.sys 0x0EE).wellFormed = false := by decide
theorem test_wellFormed_accepts :
    (Instr.sys 0x0E1).wellFormed = true ∧ Instr.cls.wellFormed = true ∧ (Instr.drw 15 15 15).wellFormed = true := by decide

/-! ## Decoding: a word of every constructor -/

theorem test_decode_family_0_1_2 :
    decode 0x00E0 = .ok .cls ∧ decode 0x00EE = .ok .ret ∧ decode 0x0000 = .ok (.sys 0) ∧ decode 0x00E1 = .ok (.sys 0x0E1) ∧
    decode 0x1ABC = .ok (.jp 0xABC) ∧ decode 0x2300 = .ok (.call 0x300) := by decide
theorem test_decode_family_3_4_5_9 :
    decode 0x332A = .ok (.seImm 3 0x2A) ∧ decode 0x432A = .ok (.sneImm 3 0x2A) ∧ decode 0x5120 = .ok (.seReg 1 2) ∧
    decode 0x9120 = .ok (.sneReg 1 2) := by decide
theorem test_decode_family_6_7 : decode 0x6A3C = .ok (.ldImm 10 0x3C) ∧ decode 0x7205 = .ok (.addImm 2 5) := by decide
theorem test_decode_family_8 :
    decode 0x8370 = .ok (.ldReg 3 7) ∧ decode 0x8121 = .ok (.orReg 1 2) ∧ decode 0x8122 = .ok (.andReg 1 2) ∧
    decode 0x8123 = .ok (.xorReg 1 2) ∧ decode 0x8124 = .ok (.addReg 1 2) ∧ decode 0x8125 = .ok (.subReg 1 2) ∧
    decode 0x8126 = .ok (.shr 1 2) ∧ decode 0x8127 = .ok (.subnReg 1 2) ∧ decode 0x812E = .ok (.shl 1 2) := by decide
theorem test_decode_family_A_B_C_D :
    decode 0xA2F0 = .ok (.ldI 0x2F0) ∧ decode 0xBFFF = .ok (.jpV0 0xFFF) ∧ decode 0xC30F = .ok (.rnd 3 0x0F) ∧
    decode 0xD125 = .ok (.drw 1 2 5) := by decide
theorem test_decode_family_E : decode 0xE49E = .ok (.skp 4) ∧ decode 0xE4A1 = .ok (.sknp 4) := by decide
theorem test_decode_family_F :
    decode 0xF307 = .ok (.ldVxDt 3) ∧ decode 0xF50A = .ok (.ldVxK 5) ∧ decode 0xF315 = .ok (.ldDtVx 3) ∧
    decode 0xF318 = .ok (.ldStVx 3) ∧ decode 0xF21E = .ok (.addI 2) ∧ decode 0xF029 = .ok (.ldF 0) ∧
    decode 0xF433 = .ok (.ldB 4) ∧ decode 0xFF55 = .ok (.storeRegs 15) ∧ decode 0xF265 = .ok (.loadRegs 2) := by decide
theorem test_decode_refuses_by_name :
    decode 0x512F = .error .unrecognizedFamily5 ∧ decode 0x812D = .error .unrecognizedFamily8 ∧
    decode 0x9121 = .error .unrecognizedFamily9 ∧ decode 0xE49F = .error .unrecognizedFamilyE ∧
    decode 0xF175 = .error .unrecognizedFamilyF ∧ decodeBytes [0x12] = .error .truncated := by decide
theorem test_decodeBytes_takes_the_high_byte_first :
    decodeBytes [0x12, 0x34, 0x56] = .ok (.jp 0x234, [0x56]) := by decide
theorem test_decodeTableWord : decodeTableWord 16 0xD125 = some (.drw 1 2 5) ∧ decodeTableWord 16 0x5121 = none := by decide
theorem test_withFetchWord : (at0 0xD125).memRead 0x200 = 0xD1 ∧ (at0 0xD125).memRead 0x201 = 0x25 := by decide

/-! ## Step cycle and control flow (vectors 2.1 and 2.2) -/

theorem test_sys : sees 0x0123 start id = some { at0 0x0123 with pc := 0x202 } := by decide
theorem test_unrecognized : sees 0x8128 (regs [(1, 1), (2, 2)]) (fun t => (t.pc, withFlag 1 t)) = some (0x202, 1, 0) := by
  decide
theorem test_fetch_wraps_inside_the_word :
    sees 0x6A11 { start with pc := 0x0FFF } (fun t => (t.reg 10, t.pc)) = some (0x11, 0x1001) := by decide
theorem test_fetch_at_the_top_of_pc :
    sees 0x6A11 { start with pc := 0xFFFE } (fun t => (t.reg 10, t.pc)) = some (0x11, 0) := by decide
theorem test_jp : sees 0x1ABC start State.pc = some 0x0ABC := by decide
theorem test_jp_odd : sees 0x1201 start State.pc = some 0x0201 := by decide
theorem test_jpV0_not_masked : sees 0xBFFF (regs [(0, 0xFF)]) State.pc = some 0x10FE := by decide
theorem test_jpV0_uses_V0 : sees 0xB300 (regs [(3, 0x55)]) State.pc = some 0x0300 := by decide
theorem test_call : sees 0x2300 (depth 15) (fun t => (t.stackCell 15, t.sp, t.pc)) = some (0x0202, 16, 0x0300) := by decide
theorem test_call_full : sees 0x2300 (depth 16) id = some { at0 0x2300 (depth 16) with fault := .stackOverflow } := by decide
theorem test_ret : sees 0x00EE (depth 1) (fun t => (t.sp, t.pc)) = some (0, 0x0206) := by decide
theorem test_ret_empty : sees 0x00EE (depth 0) id = some { at0 0x00EE (depth 0) with fault := .stackUnderflow } := by decide
theorem test_seImm : sees 0x332A (regs [(3, 0x2A)]) State.pc = some 0x204 ∧
    sees 0x332A (regs [(3, 0x2B)]) State.pc = some 0x202 := by decide
theorem test_sneImm : sees 0x432A (regs [(3, 0x2A)]) State.pc = some 0x202 ∧
    sees 0x432A (regs [(3, 0x2B)]) State.pc = some 0x204 := by decide
theorem test_seReg : sees 0x5120 (regs [(1, 7), (2, 7)]) State.pc = some 0x204 ∧
    sees 0x5120 (regs [(1, 7), (2, 8)]) State.pc = some 0x202 := by decide
theorem test_sneReg : sees 0x9120 (regs [(1, 7), (2, 8)]) State.pc = some 0x204 ∧
    sees 0x9120 (regs [(1, 7), (2, 7)]) State.pc = some 0x202 := by decide
theorem test_skp : sees 0xE49E (setKeys 0x0400 (regs [(4, 0x1A)])) State.pc = some 0x204 ∧
    sees 0xE49E (regs [(4, 0x0A)]) State.pc = some 0x202 := by decide
theorem test_sknp : sees 0xE4A1 (setKeys 0x8000 (regs [(4, 0xFF)])) State.pc = some 0x202 ∧
    sees 0xE4A1 (regs [(4, 0x0A)]) State.pc = some 0x204 := by decide

/-! ## Register arithmetic, logic, shift, random (vectors 2.3) -/

theorem test_ldImm : sees 0x6F07 start (State.reg · vf) = some 0x07 := by decide
theorem test_addImm_no_flag : sees 0x7201 (regs [(2, 0xFF), (vf, 0x55)]) (withFlag 2) = some (0x00, 0x55) := by decide
theorem test_ldReg : sees 0x8370 (regs [(7, 0x99)]) (State.reg · 3) = some 0x99 := by decide
theorem test_or : sees 0x8121 (regs [(1, 0xF3), (2, 0x3C), (vf, 0x77)]) (withFlag 1) = some (0xFF, 0x77) := by decide
theorem test_and : sees 0x8122 (regs [(1, 0xF3), (2, 0x3C), (vf, 0x77)]) (withFlag 1) = some (0x30, 0x77) := by decide
theorem test_xor : sees 0x8123 (regs [(1, 0xF3), (2, 0x3C), (vf, 0x77)]) (withFlag 1) = some (0xCF, 0x77) := by decide
theorem test_add_carry : sees 0x81F4 (regs [(1, 0xFF), (vf, 0x01)]) (withFlag 1) = some (0x00, 1) := by decide
theorem test_add_into_vf : sees 0x8F14 (regs [(vf, 0xFF), (1, 0x03)]) (State.reg · vf) = some 0x02 := by decide
theorem test_sub : sees 0x8125 (regs [(1, 0xFF), (2, 0x01)]) (withFlag 1) = some (0xFE, 1) ∧
    sees 0x8125 (regs [(1, 0xFF), (2, 0xFF)]) (withFlag 1) = some (0x00, 0) := by decide
theorem test_sub_into_vf : sees 0x8F15 (regs [(vf, 0x03), (1, 0x05)]) (State.reg · vf) = some 0xFE := by decide
theorem test_subn : sees 0x8127 (regs [(1, 0x10), (2, 0x20)]) (withFlag 1) = some (0x10, 1) ∧
    sees 0x8127 (regs [(1, 0x80), (2, 0x80)]) (withFlag 1) = some (0x00, 0) := by decide
theorem test_subn_into_vf : sees 0x8F17 (regs [(vf, 0x03), (1, 0x05)]) (State.reg · vf) = some 0x02 := by decide
theorem test_shr_in_place : sees 0x8126 (regs [(1, 0x81), (2, 0x33)]) (withFlag 1) = some (0x40, 1) := by decide
theorem test_shr_vf : sees 0x8F06 (regs [(vf, 0xFF)]) (State.reg · vf) = some 0x7F := by decide
theorem test_shl_in_place : sees 0x812E (regs [(1, 0xAA), (2, 0x33)]) (withFlag 1) = some (0x54, 1) := by decide
theorem test_shl_vf : sees 0x8F0E (regs [(vf, 0x80)]) (State.reg · vf) = some 0x00 := by decide
theorem test_rnd_takes_the_draw_of_its_label :
    perform (.step 0xB7) (at0 0xC30F) = .next { (at0 0xC30F).setReg 3 0x07 with pc := 0x202, draws := 1 } := rfl
theorem test_rnd : (randomInto 0xB7 3 0x0F start).reg 3 = 0x07 ∧ (randomInto 0xB7 3 0xFF start).reg 3 = 0xB7 := by decide

/-! ## Index register and memory (vectors 2.4) -/

theorem test_ldI : sees 0xAFFF start State.i = some 0x0FFF := by decide
theorem test_addI : sees 0xF21E (regs [(2, 0xFF)] { start with i := 0xFFF0 }) (fun t => (t.i, t.reg vf)) = some (0x00EF, 0) := by
  decide
theorem test_addI_past_memory : sees 0xF21E (regs [(2, 0x20)] { start with i := 0x0FF0 }) State.i = some 0x1010 := by decide
theorem test_ldF : sees 0xF029 (regs [(0, 0xFF)]) State.i = some 0x04FB := by decide
theorem test_ldB : sees 0xF433 (regs [(4, 156)] { start with i := 0x300 }) (memFrom 0x300 4) = some [1, 5, 6, 0] := by decide
theorem test_ldB_wraps : sees 0xF433 (regs [(4, 123)] { start with i := 0x1FFF }) (memFrom 0xFFF 3) = some [1, 2, 3] := by
  decide
theorem test_storeRegs_one : sees 0xF055 (regs [(0, 0xAB), (1, 0xCD)] { start with i := 0x400 }) (memFrom 0x400 2) =
    some [0xAB, 0x00] := by decide
theorem test_storeRegs_wraps :
    sees 0xF255 (regs [(0, 0x11), (1, 0x22), (2, 0x33), (3, 0x44)] { start with i := 0x0FFF })
      (fun t => (memFrom 0x0FFF 4 t, t.i)) = some ([0x11, 0x22, 0x33, 0x90], 0x0FFF) := by decide
theorem test_loadRegs : sees 0xF265 (bytes 0x400 [0xAA, 0xBB, 0xCC, 0xDD] (regs [(3, 0x77)] { start with i := 0x400 }))
    (fun t => (t.reg 0, t.reg 1, t.reg 2, t.reg 3, t.i)) = some (0xAA, 0xBB, 0xCC, 0x77, 0x400) := by decide
theorem test_loadRegs_font : sees 0xFF65 { start with pc := 0x300 } (fun t => (t.reg 0, t.reg 6, t.reg 13, t.reg vf)) =
    some (0xF0, 0x60, 0x80, 0xF0) := by decide

/-! ## Display (vectors 2.5) -/

theorem test_drw_wraps_both_ways :
    sees 0xD122 (bytes 0x300 [0xF0, 0x81] (regs [(1, 62), (2, 31)] { start with i := 0x300 }))
      (pixels [(31, 62), (31, 1), (31, 2), (0, 62), (0, 5), (0, 63)]) = some [true, true, false, true, true, false] := by
  decide +kernel
/-- By hand from the row of 0xDF11, with pixel (2, 4) on before: it goes off and is reported. -/
theorem test_drw_reads_vf_before_it_resets_it :
    sees 0xDF11 (bytes 0x300 [0xC0] (regs [(vf, 3), (1, 2)] (({ start with i := 0x300 } : State).setPixel 2 4 true)))
      (fun t => (pixels [(2, 0), (2, 3), (2, 4)] t, t.reg vf)) = some ([false, true, false], 1) := by decide +kernel
theorem test_cls : sees 0x00E0 (regs [(vf, 1)] (start.setPixel 31 63 true))
    (fun t => (pixels [(31, 63), (0, 0)] t, t.reg vf)) = some ([false, false], 1) := by decide +kernel

/-! ## Timers, keys and the host (vectors 2.6 and 2.7) -/

theorem test_ldVxDt : sees 0xF307 { start with dt := 0x2C } (fun t => (t.reg 3, t.dt)) = some (0x2C, 0x2C) := by decide
theorem test_ldDtVx : sees 0xF315 (regs [(3, 0x3C)]) (fun t => (t.dt, t.st)) = some (0x3C, 60) := by decide
theorem test_ldStVx : sees 0xF318 (regs [(3, 0x05)]) (fun t => (t.st, t.dt, soundOn t)) = some (0x05, 60, true) := by decide
theorem test_ldVxK_waits : sees 0xF50A { start with pc := 0x210 } id = some (at0 0xF50A { start with pc := 0x210 }) := by decide
theorem test_ldVxK_takes_the_least : sees 0xF50A (setKeys 0x0240 { start with pc := 0x210 }) (fun t => (t.reg 5, t.pc)) =
    some (6, 0x212) := by decide
theorem test_tick : tickTimers { start with dt := 2, st := 0 } = { start with dt := 1, st := 0 } := by decide
theorem test_load : loadProgram [0x12, 0x00] start = { start with mem := [(0x200, 0x12)] } := by decide
theorem test_load_status : loadStatus (List.replicate 3584 1) start = .ok ∧
    loadStatus (List.replicate 3585 1) start = .loadTooLarge := by decide +kernel
theorem test_setKeys : (List.finRange 16).filter (setKeys 0x8001 start).keyHeld = [0, 15] := by decide
theorem test_fault_is_left_by_reset : perform .reset { start with fault := .stackOverflow, i := 5 } = .next State.reset := rfl
theorem test_readOut_fault_code : (readOut { start with fault := .stackUnderflow }).fault = 2 := by decide
theorem test_lastWord : lastWord (at0 0x1200) = some 0x1200 ∧ lastWord { start with fault := .stackOverflow } = none := by decide

/-! ## States and operands that meet the hypotheses of each statement -/

theorem witness_EncodeThenDecodeIsIdentity : (Instr.sys 0xFFF).wellFormed = true ∧ (Instr.shr 15 0).wellFormed = true := by
  decide

theorem witness_DecodeThenEncodeIsIdentity :
    decode 0x0FFF = .ok (.sys 0xFFF) ∧ decode 0x8F06 = .ok (.shr 15 0) := by decide

/-- Both sides of the equivalence, at words next to recognized ones. -/
theorem witness_UnrecognizedWordsAreThoseOfTheTable :
    UnrecognizedWord 0x5121 ∧ UnrecognizedWord 0x812D ∧ UnrecognizedWord 0x9121 ∧ UnrecognizedWord 0xE49F ∧
    UnrecognizedWord 0xF000 ∧ ¬ UnrecognizedWord 0x812E ∧ ¬ UnrecognizedWord 0xF065 :=
  ⟨by decide, by decide, by decide, by decide, by decide, by decide, by decide⟩

theorem witness_StepRunsTheDecodedInstruction :
    (at0 0x2300).fault = .none ∧
    decode ((at0 0x2300).memRead (at0 0x2300).pc.toNat ++ (at0 0x2300).memRead ((at0 0x2300).pc.toNat + 1)) =
      .ok (.call 0x300) := by decide

theorem witness_UnrecognizedWordIsNoOp : (at0 0xF175).fault = .none ∧
    decode ((at0 0xF175).memRead (at0 0xF175).pc.toNat ++ (at0 0xF175).memRead ((at0 0xF175).pc.toNat + 1)) =
      .error .unrecognizedFamilyF := by decide

theorem witness_SysAddrIsNoOp : (at0 0x0FFF).fault = .none ∧
    (0x0FFF : Word) = (at0 0x0FFF).memRead (at0 0x0FFF).pc.toNat ++ (at0 0x0FFF).memRead ((at0 0x0FFF).pc.toNat + 1) ∧
    (0x0FFF : Word).toNat < 0x1000 ∧ (0x0FFF : Word) ≠ 0x00E0#16 ∧ (0x0FFF : Word) ≠ 0x00EE#16 := by decide

/-- Each clause of the table that looks at the state, on both sides of its condition. -/
theorem witness_PcAfterEachStep :
    (fetched (at0 0x2300 (depth 15)) = .ok (.call 0x300) ∧ (at0 0x2300 (depth 15)).sp.val ≠ 16) ∧
    (fetched (at0 0x2300 (depth 16)) = .ok (.call 0x300) ∧ (at0 0x2300 (depth 16)).sp.val = 16) ∧
    (fetched (at0 0x00EE (depth 0)) = .ok .ret ∧ (at0 0x00EE (depth 0)).sp.val = 0) ∧
    (fetched (at0 0x00EE (depth 1)) = .ok .ret ∧ (at0 0x00EE (depth 1)).sp.val ≠ 0) ∧
    (fetched (at0 0x332A) = .ok (.seImm 3 0x2A) ∧ (at0 0x332A).reg 3 ≠ 0x2A ∧ (regs [(3, 0x2A)] (at0 0x332A)).reg 3 = 0x2A) ∧
    (fetched (at0 0x5120) = .ok (.seReg 1 2) ∧ (at0 0x5120).reg 1 = (at0 0x5120).reg 2) ∧
    (fetched (at0 0xE49E) = .ok (.skp 4) ∧ (at0 0xE49E).keyHeld 0 = false ∧ (setKeys 1 (at0 0xE49E)).keyHeld 0 = true) ∧
    (fetched (at0 0xF50A) = .ok (.ldVxK 5) ∧ (∀ k, (at0 0xF50A).keyHeld k = false) ∧
      (setKeys 0x8000 (at0 0xF50A)).keyHeld 15 = true) ∧
    (at0 0x2300 (depth 16)).fault = .none := by decide

theorem witness_CallPushesReturnAddress : (depth 0).sp.val < 16 ∧ (depth 15).sp.val < 16 := by decide

theorem witness_ReturnPopsIntoPc : 0 < (depth 1).sp.val ∧ 0 < (depth 16).sp.val ∧
    (15 : Fin 16).val + 1 = (depth 16).sp.val := by decide

theorem witness_StackFaultsRollBackTheStep :
    ((depth 16).sp.val = 16 ∧ (depth 0).sp.val = 0) ∧
    ((at0 0x2300 (depth 16)).fault = .none ∧ fetched (at0 0x2300 (depth 16)) = .ok (.call 0x300) ∧
      (at0 0x2300 (depth 16)).sp.val = 16) ∧
    ((at0 0x00EE).fault = .none ∧ fetched (at0 0x00EE) = .ok .ret ∧ (at0 0x00EE).sp.val = 0) := by decide

theorem witness_SkipsTestTheKeyInVx :
    ((regs [(4, 0xFF)]).reg 4).toNat % 16 = (15 : KeyNum).val ∧ (start.reg 4).toNat % 16 = (0 : KeyNum).val := by decide

/-- At the deepest level the call itself leaves such a state; at a shallower one so does a body that itself calls, from
0x300, and returns: its popped cell keeps the address 0x0302, and `SP` and the cell below are as the call left them. -/
theorem witness_ReturnUndoesCall :
    ((depth 0).sp.val < 16 ∧ (depth 15).sp.val < 16) ∧
    ∃ t u t', exec (.call 0x300) (depth 0) = .next t ∧ exec (.call 0x400) t.advancePc = .next u ∧ exec .ret u = .next t' ∧
      (t'.sp = t.sp ∧ ∀ k : Fin 16, k.val < t.sp.val → t'.stackCell k = t.stackCell k) ∧ t'.stack ≠ t.stack :=
  ⟨by decide, _, _, _, rfl, rfl, rfl, by decide, by decide⟩

/-- The lowest address, and the highest: the word straddles the end of memory. -/
theorem witness_SelfJumpIsAFixedPoint :
    (Running (at0 0x1000 { start with pc := 0 }) ∧ Finished (at0 0x1000 { start with pc := 0 })) ∧
    Running (at0 0x1FFF { start with pc := 0x0FFF }) ∧ Finished (at0 0x1FFF { start with pc := 0x0FFF }) := by
  unfold Finished; decide

/-- `AddRegistersSetsCarry`, `SubtractsSetStrictlyGreater`, `ShiftsCaptureTheBitShiftedOut`: the registers nearest to `VF`. -/
theorem witness_FlagSettersIntoAnotherRegister : (14 : RegNum) ≠ vf ∧ (0 : RegNum) ≠ vf := by decide

/-- `BlockStoreCopiesRegisters` and `BlockLoadCopiesMemory`: the shortest block and the longest. -/
theorem witness_BlockStoreAndLoad : (0 : RegNum).val ≤ (0 : RegNum).val ∧ (15 : RegNum).val ≤ (15 : RegNum).val := by decide

/-- The stored pair at `PC`, and across the end of memory. -/
theorem witness_StoredCodeIsFetched :
    ((1 : RegNum).val = (0 : RegNum).val + 1 ∧ (1 : RegNum).val ≤ (1 : RegNum).val ∧
      (({ start with i := 0x208, pc := 0x208 } : State).i.toNat + 0) % 4096 = (0x208 : Word).toNat % 4096) ∧
    ((15 : RegNum).val = (14 : RegNum).val + 1 ∧ (15 : RegNum).val ≤ (15 : RegNum).val ∧
      ((0x1FF1 : Word).toNat + (14 : RegNum).val) % 4096 = (0x0FFF : Word).toNat % 4096) := by decide

/-- A sprite pixel that wraps both ways, and a screen pixel that no sprite pixel reaches. -/
theorem witness_DrawXorsTheSprite :
    (14 < (15 : Fin 16).val ∧ 7 < 8 ∧ (13 : Fin 32).val = ((0xFF : Byte).toNat + 14) % 32 ∧
      (6 : Fin 64).val = ((0xFF : Byte).toNat + 7) % 64) ∧
    ∀ row < (15 : Fin 16).val, ∀ bit < 8,
      ¬ ((0 : Fin 32).val = ((1 : Byte).toNat + row) % 32 ∧ (0 : Fin 64).val = ((1 : Byte).toNat + bit) % 64) := by decide

/-- Two registers that are not `VF`, a clear screen, and a sprite bit: the font's first. -/
theorem witness_DrawingTwiceRestoresTheScreen :
    ((14 : RegNum) ≠ vf ∧ (0 : RegNum) ≠ vf) ∧ (∀ r c, start.clearDisplay.pixel r c = false) ∧
    (0 < (5 : Fin 16).val ∧ (start.memRead (start.i.toNat + 0)).getLsbD (7 - 0) = true) :=
  ⟨by decide, fun r c => State.pixel_clearDisplay start r c, by decide⟩

/-- The least key alone, the greatest key alone, and none. -/
theorem witness_KeyWaitStoresTheLeastHeldKey :
    ((setKeys 0x8001 start).keyHeld 0 = true ∧ ∀ j, j < (0 : KeyNum) → (setKeys 0x8001 start).keyHeld j = false) ∧
    ((setKeys 0x8000 start).keyHeld 15 = true ∧ ∀ j, j < (15 : KeyNum) → (setKeys 0x8000 start).keyHeld j = false) ∧
    ((at0 0xF50A).fault = .none ∧ fetched (at0 0xF50A) = .ok (.ldVxK 5) ∧ ∀ k, (at0 0xF50A).keyHeld k = false) := by decide

/-- A machine that runs and one that does not: `TickCountsBothTimersDown`, `TicksReachZeroAndStay`,
`SetKeysReplacesEveryFlag`, `LoadProgramCopiesTheImage`, `FaultedMachineIsFrozen`. -/
theorem witness_RunningAndFaulted :
    start.fault = .none ∧ ({ start with fault := .stackUnderflow } : State).fault ≠ .none ∧
    HostOp.reset ∉ [HostOp.step 0, .tick, .setKeys 1, .load [1]] := by decide

theorem witness_ResetLeavesTheInitialState :
    (∃ d e s, s = State.resetWith d e) ∧ (0x050 ≤ 0x050 ∧ 0x050 < 4096) ∧ 0x050 ≤ 4095 ∧ 4095 < 4096 :=
  ⟨⟨1, 255, _, rfl⟩, by decide⟩

/-- The longest image that fits, with its last byte, and the shortest that does not. -/
theorem witness_LoadProgramCopiesTheImage :
    start.fault = .none ∧ (List.replicate 3584 (7 : Byte)).length ≤ 3584 ∧
    (List.replicate 3584 (7 : Byte))[3583]? = some 7 ∧ (List.replicate 3585 (7 : Byte)).length > 3584 := by
  decide +kernel

/-- Both faults, as the step raises them. -/
theorem witness_OnlyCallAndReturnFault :
    (∃ s t : State, s.fault = .none ∧ perform (.step 0) s = .next t ∧ t.fault ≠ .none ∧ fetched s = .ok (.call 0x300)) ∧
    ∃ s t : State, s.fault = .none ∧ perform (.step 0) s = .next t ∧ t.fault ≠ .none ∧ fetched s = .ok .ret :=
  ⟨⟨at0 0x2300 (depth 16), _, by decide, rfl, by decide, by decide⟩, ⟨at0 0x00EE, _, by decide, rfl, by decide, by decide⟩⟩

/-- A step that writes both timers' neighbours: the loads of `DT` and of `ST`. -/
theorem witness_StepsNeverTickOrPressKeys :
    (∃ t, step (at0 0xF315) = .next t ∧ t.dt ≠ (at0 0xF315).dt) ∧
    ∃ t, step (at0 0xF318) = .next t ∧ t.st ≠ (at0 0xF318).st :=
  ⟨⟨_, rfl, by decide⟩, ⟨_, rfl, by decide⟩⟩

/-- `CLS` turns a pixel off; a BCD store, a block store and a load change a byte. -/
theorem witness_OnlyDrawsAndStoresChangeScreenAndMemory :
    (∃ t, perform (.step 0) (at0 0x00E0 (start.setPixel 0 0 true)) = .next t ∧
      ∃ r c, t.pixel r c ≠ (at0 0x00E0 (start.setPixel 0 0 true)).pixel r c) ∧
    (∃ t, perform (.step 0) (at0 0xF433) = .next t ∧ ∃ a, t.memRead a ≠ (at0 0xF433).memRead a) ∧
    (∃ t, perform (.step 0) (at0 0xF055) = .next t ∧ ∃ a, t.memRead a ≠ (at0 0xF055).memRead a) ∧
    ∃ t, perform (.load [0x12]) start = .next t ∧ ∃ a, t.memRead a ≠ start.memRead a :=
  ⟨⟨_, rfl, 0, 0, by decide⟩, ⟨_, rfl, 0, by decide⟩, ⟨_, rfl, 0, by decide⟩, ⟨_, rfl, 0x200, by decide⟩⟩

/-- A running state with bytes in memory that stores, a state that is about to fault, and a faulted one. -/
theorem witness_StepKeepsTheInvariant :
    (Inv (at0 0xF055 { start with i := 0x1FFF }) ∧ ∃ t, step (at0 0xF055 { start with i := 0x1FFF }) = .next t) ∧
    (Inv (at0 0x2300 (depth 16)) ∧ ∃ t, step (at0 0x2300 (depth 16)) = .next t ∧ t.fault = .stackOverflow) ∧
    Inv { at0 0x00EE with fault := .stackUnderflow } ∧ Inv { at0 0x2300 (depth 16) with fault := .stackOverflow } :=
  ⟨⟨⟨by decide, trivial⟩, _, rfl⟩, ⟨⟨by decide, trivial⟩, _, rfl, rfl⟩, ⟨by decide, by decide, by decide⟩,
    ⟨by decide, by decide, 0x300, by decide⟩⟩

/-- A running `RND`, and the two ways in which the draw is ignored. -/
theorem witness_StepLabelSuppliesTheDraw :
    ((at0 0xC30F).fault = .none ∧ fetched (at0 0xC30F) = .ok (.rnd 3 0x0F)) ∧
    ({ at0 0xC30F with fault := .stackOverflow } : State).fault ≠ .none ∧ fetched (at0 0x6A11) = .ok (.ldImm 10 0x11) := by
  decide

/-- From every state, the infinite run in which the host only ticks, and its states. -/
theorem ticking_run (s : State) : InfiniteRun (fun _ => .tick) fun n => tickTimers^[n] s := fun n => by
  simp only [perform, Function.iterate_succ_apply']

/-- A running machine that ticks for ever, and a faulted one that ticks for ever: its `reset()` never comes. -/
theorem witness_InfiniteRunsKeepTheInvariant :
    (∃ trace, InfiniteRun (fun _ => .tick) trace ∧ Inv (trace 0)) ∧
    ∃ trace, InfiniteRun (fun _ => .tick) trace ∧ Inv (trace 0) ∧ (trace 0).fault ≠ .none ∧ HostOp.tick ≠ .reset :=
  ⟨⟨_, ticking_run start, by decide, trivial⟩,
    _, ticking_run { at0 0x00EE with fault := .stackUnderflow }, ⟨by decide, by decide, by decide⟩, by decide, by decide⟩

/-- The ticking machine of the vectors, whose delay timer starts at 60. -/
theorem witness_DelayTimerRunsOutUnderTicks :
    ∃ ops trace, InfiniteRun ops trace ∧ TicksForever ops ∧ (∀ n, Running (trace n)) ∧ (∀ n, ops n ≠ .reset) ∧
      (∀ n r x, ops n = .step r → fetched (trace n) ≠ .ok (.ldDtVx x)) ∧ (trace 0).dt = 60 := by
  refine ⟨fun _ => .tick, fun n => tickTimers^[n] start, ticking_run start, fun n => ⟨n, Nat.le_refl n, rfl⟩, fun n => ?_,
    fun _ => nofun, fun _ _ _ => nofun, rfl⟩
  induction n with
  | zero => rfl
  | succ n ih =>
    show (tickTimers^[n + 1] start).fault = .none
    rw [Function.iterate_succ_apply']
    exact ((frame_tickTimers _).2.2.2.2.2.2.2.2.2.1 rfl).trans ih

theorem witness_RunsKeepTheInvariant : Inv start ∧ Inv (loadProgram [0x22, 0x00] start) :=
  ⟨⟨by decide, trivial⟩, ⟨by decide, trivial⟩⟩

end Sys2Proof.Tests
end

section
/-! PROOFS. The step cycle (40_step_cycle.md). -/

namespace Sys2Proof.Machine

/-- What a step decodes is the byte at `PC` followed by the byte after it, in that order (R36, R59). -/
theorem fetched_eq_decode_memRead (s : State) :
    fetched s = decode (s.memRead s.pc.toNat ++ s.memRead (s.pc.toNat + 1)) := rfl

/-- The advance of `PC` by 2, modulo 65536, is the only change `advancePc` makes (R59). -/
theorem State.advancePc_eq (s : State) : s.advancePc = { s with pc := s.pc + 2 } := rfl

/-- Settles O7, from what a step does on a word that the decoder rejects. -/
theorem unrecognizedWordIsNoOp : Obligations.UnrecognizedWordIsNoOp := by
  intro s why running rejected
  have unrecognized : fetched s = .error why := (fetched_eq_decode_memRead s).trans rejected
  rw [step_unrecognized running unrecognized, State.advancePc_eq]

end Sys2Proof.Machine
end

section
/-! PROOFS. Control flow (41_control_flow.md): the jump and the register skips. -/

namespace Sys2Proof.Machine

/-! ## The jump -/

theorem exec_jp (addr : Addr) (s : State) : exec (.jp addr) s = .next (s.setPc (addrOperand addr)) := rfl

/-- The extension of an address to 16 bits adds zeros only (R66). -/
theorem addrOperand_toNat (addr : Addr) : (addrOperand addr).toNat = addr.toNat :=
  BitVec.toNat_setWidth_of_le (by decide)

theorem frame_setPc (s : State) (a : Word) : Frame { pc := true } s (s.setPc a) := by simp [Frame]

/-- Settles O11: the whole effect of the jump is one write to `PC`. -/
theorem jumpSetsPcToAddr : Obligations.JumpSetsPcToAddr := fun addr s =>
  ⟨s.setPc (addrOperand addr), exec_jp addr s, addrOperand_toNat addr, frame_setPc s _⟩

/-! ## The skips -/

theorem exec_seImm (x : RegNum) (nn : Byte) (s : State) : exec (.seImm x nn) s = .next (s.skipIf (s.reg x == nn)) := rfl

theorem exec_sneImm (x : RegNum) (nn : Byte) (s : State) : exec (.sneImm x nn) s = .next (s.skipIf (s.reg x != nn)) := rfl

theorem exec_seReg (x y : RegNum) (s : State) : exec (.seReg x y) s = .next (s.skipIf (s.reg x == s.reg y)) := rfl

theorem exec_sneReg (x y : RegNum) (s : State) : exec (.sneReg x y) s = .next (s.skipIf (s.reg x != s.reg y)) := rfl

/-- An instruction whose meaning is a skip adds a further 2 to `PC` exactly when the condition it tests holds, and writes
nothing else (R65). -/
theorem exec_skip {i : Instr} {s : State} {test : Bool} {condition : Prop} [Decidable condition]
    (meaning : exec i s = .next (s.skipIf test)) (tests : test = true ↔ condition) :
    ∃ t, exec i s = .next t ∧ t.pc = (if condition then s.pc + 2 else s.pc) ∧ Frame { pc := true } s t :=
  ⟨s.skipIf test, meaning, by simp only [State.skipIf_pc, tests], frame_skipIf s test⟩

/-- Settles O16: each of the four is a skip on the equality or inequality that it tests. -/
theorem skipsCompareRegisters : Obligations.SkipsCompareRegisters :=
  ⟨fun x nn s => exec_skip (exec_seImm x nn s) beq_iff_eq,
    fun x nn s => exec_skip (exec_sneImm x nn s) bne_iff_ne,
    fun x y s => exec_skip (exec_seReg x y s) beq_iff_eq,
    fun x y s => exec_skip (exec_sneReg x y s) bne_iff_ne⟩

end Sys2Proof.Machine
end

section
/-! PROOFS. Register arithmetic, logic and shift (42_alu.md): the moves, the bitwise operations, the flag setters. -/

namespace Sys2Proof.Machine

/-! ## One register written, no flag -/

theorem frame_setReg (s : State) (x : RegNum) (b : Byte) : Frame { regs := [x] } s (s.setReg x b) := by
  simp only [Frame, State.reg_setReg, List.mem_singleton]
  exact ⟨fun r h => if_neg h, by simp⟩

theorem exec_ldImm (x : RegNum) (nn : Byte) (s : State) : exec (.ldImm x nn) s = .next (s.setReg x nn) := rfl

theorem exec_addImm (x : RegNum) (nn : Byte) (s : State) :
    exec (.addImm x nn) s = .next (s.setReg x (s.reg x + nn)) := rfl

theorem exec_ldReg (x y : RegNum) (s : State) : exec (.ldReg x y) s = .next (s.setReg x (s.reg y)) := rfl

theorem exec_orReg (x y : RegNum) (s : State) : exec (.orReg x y) s = .next (s.setReg x (s.reg x ||| s.reg y)) := rfl

theorem exec_andReg (x y : RegNum) (s : State) : exec (.andReg x y) s = .next (s.setReg x (s.reg x &&& s.reg y)) := rfl

theorem exec_xorReg (x y : RegNum) (s : State) : exec (.xorReg x y) s = .next (s.setReg x (s.reg x ^^^ s.reg y)) := rfl

/-- Settles O20: each of the three is one register write, and the sum of bytes is the sum modulo 256. -/
theorem loadAddImmediateAndCopy : Obligations.LoadAddImmediateAndCopy :=
  ⟨fun x nn s => ⟨_, exec_ldImm x nn s, s.reg_setReg_same x nn, frame_setReg s x _⟩,
    fun x nn s => ⟨_, exec_addImm x nn s, by rw [State.reg_setReg_same, BitVec.toNat_add], frame_setReg s x _⟩,
    fun x y s => ⟨_, exec_ldReg x y s, s.reg_setReg_same x (s.reg y), frame_setReg s x _⟩⟩

/-- Settles O21: each of the three is one register write of a bitwise operation on both operands. -/
theorem logicActsBitByBit : Obligations.LogicActsBitByBit := fun x y s =>
  ⟨⟨_, exec_orReg x y s, fun b _ => by rw [State.reg_setReg_same, BitVec.getLsbD_or], frame_setReg s x _⟩,
    ⟨_, exec_andReg x y s, fun b _ => by rw [State.reg_setReg_same, BitVec.getLsbD_and], frame_setReg s x _⟩,
    ⟨_, exec_xorReg x y s, fun b _ => by rw [State.reg_setReg_same, BitVec.getLsbD_xor], frame_setReg s x _⟩⟩

/-! ## A flag and then a result -/

theorem exec_addReg (x y : RegNum) (s : State) :
    exec (.addReg x y) s = .next (setFlagThenResult x (carryFlag (s.reg x) (s.reg y)) (s.reg x + s.reg y) s) := rfl

theorem exec_shr (x y : RegNum) (s : State) :
    exec (.shr x y) s = .next (setFlagThenResult x (shiftRightFlag (s.reg x)) (s.reg x >>> 1) s) := rfl

theorem exec_shl (x y : RegNum) (s : State) :
    exec (.shl x y) s = .next (setFlagThenResult x (shiftLeftFlag (s.reg x)) (s.reg x <<< 1) s) := rfl

theorem reg_setFlagThenResult_dest (s : State) (x : RegNum) (flag result : Byte) :
    (setFlagThenResult x flag result s).reg x = result := by simp

/-- The flag stays in `VF` when the destination is another register (R77). -/
theorem reg_setFlagThenResult_vf (s : State) {x : RegNum} (other : x ≠ vf) (flag result : Byte) :
    (setFlagThenResult x flag result s).reg vf = flag := by simp [other.symm]

theorem flagByte_toNat (p : Bool) : (flagByte p).toNat = p.toNat := by cases p <;> rfl

theorem carryFlag_eq (a b : Byte) : carryFlag a b = if a.toNat + b.toNat > 255 then 1 else 0 := by
  simp only [carryFlag, flagByte, decide_eq_true_eq]

/-- The bit that `SHR` shifts out is the remainder of the division by 2 (R86). -/
theorem shiftRightFlag_toNat (a : Byte) : (shiftRightFlag a).toNat = a.toNat % 2 := by
  rw [shiftRightFlag, flagByte_toNat, BitVec.getLsbD, Nat.toNat_testBit, Nat.pow_zero, Nat.div_one]

/-- The bit that `SHL` shifts out is the quotient by 128, which for a byte is 0 or 1 (R88). -/
theorem shiftLeftFlag_toNat (a : Byte) : (shiftLeftFlag a).toNat = a.toNat / 128 := by
  have bit : a.toNat / 128 < 2 := Nat.div_lt_of_lt_mul a.isLt
  rw [shiftLeftFlag, flagByte_toNat, BitVec.getLsbD, Nat.toNat_testBit, Nat.mod_eq_of_lt bit]

theorem toNat_shiftRight_one (a : Byte) : (a >>> 1).toNat = a.toNat / 2 := by
  rw [BitVec.toNat_ushiftRight, Nat.shiftRight_eq_div_pow, Nat.pow_one]

theorem toNat_shiftLeft_one (a : Byte) : (a <<< 1).toNat = 2 * a.toNat % 256 := by
  rw [BitVec.toNat_shiftLeft, Nat.shiftLeft_eq, Nat.pow_one, Nat.mul_comm]

/-- Settles O22: the result is the sum of bytes, which is modulo 256, and the flag is its carry. -/
theorem addRegistersSetsCarry : Obligations.AddRegistersSetsCarry := fun x y s other =>
  ⟨_, exec_addReg x y s, by rw [reg_setFlagThenResult_dest, BitVec.toNat_add],
    by rw [reg_setFlagThenResult_vf s other, carryFlag_eq], frame_setFlagThenResult x _ _ s⟩

/-- Settles O24: a shift by one halves or doubles the byte, and the bit it drops is the remainder by 2 or the quotient by
128. -/
theorem shiftsCaptureTheBitShiftedOut : Obligations.ShiftsCaptureTheBitShiftedOut := fun x y s other =>
  ⟨⟨_, exec_shr x y s, by rw [reg_setFlagThenResult_dest, toNat_shiftRight_one],
      by rw [reg_setFlagThenResult_vf s other, shiftRightFlag_toNat], frame_setFlagThenResult x _ _ s⟩,
    ⟨_, exec_shl x y s, by rw [reg_setFlagThenResult_dest, toNat_shiftLeft_one],
      by rw [reg_setFlagThenResult_vf s other, shiftLeftFlag_toNat], frame_setFlagThenResult x _ _ s⟩⟩

end Sys2Proof.Machine
end

section
/-! PROOFS. Index register and memory (43_index_memory.md): the three instructions that write `I`. -/

namespace Sys2Proof.Machine

theorem frame_setI (s : State) (a : Word) : Frame { i := true } s (s.setI a) := by simp [Frame]

theorem exec_ldI (addr : Addr) (s : State) : exec (.ldI addr) s = .next (s.setI (addrOperand addr)) := rfl

theorem exec_addI (x : RegNum) (s : State) : exec (.addI x) s = .next (s.setI (s.i + wordOfByte (s.reg x))) := rfl

theorem exec_ldF (x : RegNum) (s : State) : exec (.ldF x) s = .next (s.setI (glyphAddr (s.reg x))) := rfl

/-- The extension of a byte to 16 bits adds zeros only (R95). -/
theorem wordOfByte_toNat (b : Byte) : (wordOfByte b).toNat = b.toNat := BitVec.toNat_setWidth_of_le (by decide)

/-- Five times the greatest byte is 1275, so the product is not cut to 16 bits (R96). -/
theorem glyphAddr_toNat (digit : Byte) : (glyphAddr digit).toNat = digit.toNat * 5 := by
  have fits : digit.toNat * 5 < 2 ^ 16 := by have := digit.isLt; omega
  rw [glyphAddr, BitVec.toNat_ofNat, Nat.mod_eq_of_lt fits]

/-- Settles O27: each of the three is one write to `I`, and the sum of words is the sum modulo 65536. -/
theorem indexInstructionsSetI : Obligations.IndexInstructionsSetI :=
  ⟨fun addr s => ⟨_, exec_ldI addr s, addrOperand_toNat addr, frame_setI s _⟩,
    fun x s => ⟨_, exec_addI x s, by rw [State.setI_i, BitVec.toNat_add, wordOfByte_toNat], frame_setI s _⟩,
    fun x s => ⟨_, exec_ldF x s, glyphAddr_toNat (s.reg x), frame_setI s _⟩⟩

end Sys2Proof.Machine
end

section
/-! PROOFS. Timers and key-wait (45_timers_keywait.md): the key-wait instruction. -/

namespace Sys2Proof.Machine

/-- A held key below which no key is held is the key that key-wait finds (R108). -/
theorem State.lowestHeldKey_eq_some {s : State} {k : KeyNum} (held : s.keyHeld k = true)
    (least : ∀ j, j < k → s.keyHeld j = false) : s.lowestHeldKey = some k := by
  cases found : s.lowestHeldKey with
  | none =>
    have notHeld := s.lowestHeldKey_none.mp found k
    exact absurd held (by simp [notHeld])
  | some m =>
    obtain ⟨heldM, leastM⟩ := s.lowestHeldKey_some found
    have notBelow : ¬ m < k := fun below => by simp [least m below] at heldM
    have notAbove : ¬ k < m := fun above => by simp [leastM k above] at held
    rw [le_antisymm (not_lt.mp notAbove) (not_lt.mp notBelow)]

theorem exec_ldVxK_held {s : State} {k : KeyNum} (x : RegNum) (found : s.lowestHeldKey = some k) :
    exec (.ldVxK x) s = .next (s.setReg x (BitVec.ofNat 8 k.val)) := by
  show execLdVxK x s = _
  rw [execLdVxK, found]

theorem exec_ldVxK_none {s : State} (x : RegNum) (noKey : ∀ k, s.keyHeld k = false) :
    exec (.ldVxK x) s = .next s.rewindPc := by
  show execLdVxK x s = _
  rw [execLdVxK, s.lowestHeldKey_none.mpr noKey]

/-- A key number fits in the byte that it is stored as. -/
theorem keyByte_toNat (k : KeyNum) : (BitVec.ofNat 8 k.val).toNat = k.val := by
  rw [BitVec.toNat_ofNat, Nat.mod_eq_of_lt (by omega)]

/-- The rewind of `PC` undoes the advance of the fetch, the wrap modulo 65536 included (R108). -/
theorem State.rewindPc_advancePc (s : State) : s.advancePc.rewindPc = s := by
  simp [State.rewindPc, State.advancePc, State.setPc]

/-- Settles O38: with a key held the instruction is one register write; with none held its one effect is the rewind of
`PC`, which undoes the advance that the step began with. -/
theorem keyWaitStoresTheLeastHeldKey : Obligations.KeyWaitStoresTheLeastHeldKey := by
  refine ⟨fun x k s held least => ?stored, fun x s noKey => ?waits, fun x s running fetch noKey => ?identity⟩
  case stored =>
    have found := State.lowestHeldKey_eq_some held least
    exact ⟨_, exec_ldVxK_held x found, by rw [State.reg_setReg_same, keyByte_toNat], frame_setReg s x _⟩
  case waits => exact ⟨s.rewindPc, exec_ldVxK_none x noKey, s.rewindPc_pc, frame_setPc s _⟩
  case identity =>
    have noKeyAfterFetch : ∀ k, s.advancePc.keyHeld k = false := fun k => (s.advancePc_keyHeld k).trans (noKey k)
    rw [step_instr running fetch, exec_ldVxK_none x noKeyAfterFetch, State.rewindPc_advancePc]

end Sys2Proof.Machine
end

section
/-! PROOFS. The decoder and the encoder (30_encoding.md): each is the other's inverse, and the decoder agrees with the opcode map
and with the table of unrecognized words. -/

namespace Sys2Proof

/-! ## What the decoder answers, family by family (R53) -/

section
variable {w : Word}

theorem decode_family0 (fam : fieldFam w = 0x0#4) : decode w = .ok (decodeFamily0 w) := by unfold decode; rw [fam]; rfl
theorem decode_family1 (fam : fieldFam w = 0x1#4) : decode w = .ok (.jp (fieldAddr w)) := by
  unfold decode; rw [fam]; rfl
theorem decode_family2 (fam : fieldFam w = 0x2#4) : decode w = .ok (.call (fieldAddr w)) := by
  unfold decode; rw [fam]; rfl
theorem decode_family3 (fam : fieldFam w = 0x3#4) : decode w = .ok (.seImm (fieldX w) (fieldNN w)) := by
  unfold decode; rw [fam]; rfl
theorem decode_family4 (fam : fieldFam w = 0x4#4) : decode w = .ok (.sneImm (fieldX w) (fieldNN w)) := by
  unfold decode; rw [fam]; rfl
theorem decode_family5 (fam : fieldFam w = 0x5#4) : decode w =
    if fieldN w = 0x0#4 then .ok (.seReg (fieldX w) (fieldY w)) else .error .unrecognizedFamily5 := by
  unfold decode; rw [fam]; rfl
theorem decode_family6 (fam : fieldFam w = 0x6#4) : decode w = .ok (.ldImm (fieldX w) (fieldNN w)) := by
  unfold decode; rw [fam]; rfl
theorem decode_family7 (fam : fieldFam w = 0x7#4) : decode w = .ok (.addImm (fieldX w) (fieldNN w)) := by
  unfold decode; rw [fam]; rfl
theorem decode_family8 (fam : fieldFam w = 0x8#4) : decode w = decodeFamily8 w := by unfold decode; rw [fam]; rfl
theorem decode_family9 (fam : fieldFam w = 0x9#4) : decode w =
    if fieldN w = 0x0#4 then .ok (.sneReg (fieldX w) (fieldY w)) else .error .unrecognizedFamily9 := by
  unfold decode; rw [fam]; rfl
theorem decode_familyA (fam : fieldFam w = 0xA#4) : decode w = .ok (.ldI (fieldAddr w)) := by
  unfold decode; rw [fam]; rfl
theorem decode_familyB (fam : fieldFam w = 0xB#4) : decode w = .ok (.jpV0 (fieldAddr w)) := by
  unfold decode; rw [fam]; rfl
theorem decode_familyC (fam : fieldFam w = 0xC#4) : decode w = .ok (.rnd (fieldX w) (fieldNN w)) := by
  unfold decode; rw [fam]; rfl
theorem decode_familyD (fam : fieldFam w = 0xD#4) :
    decode w = .ok (.drw (fieldX w) (fieldY w) (fieldN w).toFin) := by unfold decode; rw [fam]; rfl
theorem decode_familyE (fam : fieldFam w = 0xE#4) : decode w = decodeFamilyE w := by unfold decode; rw [fam]; rfl
theorem decode_familyF (fam : fieldFam w = 0xF#4) : decode w = decodeFamilyF w := by unfold decode; rw [fam]; rfl

end

/-! ## Decoding an encoded instruction -/

/-- Every word of family 0 but the two fixed ones is a `SYS` (R53, R62). -/
theorem decode_family0_sys {w : Word} (fam : fieldFam w = 0x0#4) (notCls : w ≠ 0x00E0#16) (notRet : w ≠ 0x00EE#16) :
    decode w = .ok (.sys (fieldAddr w)) := by
  rw [decode_family0 fam, decodeFamily0, if_neg notCls, if_neg notRet]

theorem decode_encode_sys {addr : Addr} (ok : sysAddrOk addr = true) : decode (wordNNN 0 addr) = .ok (.sys addr) := by
  simp only [sysAddrOk, Bool.and_eq_true, bne_iff_ne] at ok
  obtain ⟨notE0, notEE⟩ := ok
  have addrKept : fieldAddr (wordNNN 0 addr) = addr := fieldAddr_wordNNN 0 addr
  have notCls : wordNNN 0 addr ≠ 0x00E0#16 := fun h => notE0 (addrKept.symm.trans (congrArg fieldAddr h))
  have notRet : wordNNN 0 addr ≠ 0x00EE#16 := fun h => notEE (addrKept.symm.trans (congrArg fieldAddr h))
  rw [decode_family0_sys (fieldFam_wordNNN 0 addr) notCls notRet, addrKept]

theorem decode_encode {i : Instr} (wf : i.wellFormed = true) : decode (encode i) = .ok i := by
  cases i with
  | cls => decide
  | ret => decide
  | sys addr => exact decode_encode_sys wf
  | jp addr => simp [encode, decode_family1]
  | call addr => simp [encode, decode_family2]
  | seImm x nn => simp [encode, decode_family3]
  | sneImm x nn => simp [encode, decode_family4]
  | seReg x y => simp [encode, decode_family5]
  | ldImm x nn => simp [encode, decode_family6]
  | addImm x nn => simp [encode, decode_family7]
  | ldReg x y | orReg x y | andReg x y | xorReg x y | addReg x y | subReg x y | shr x y | subnReg x y | shl x y =>
    simp [encode, decode_family8, decodeFamily8]
  | sneReg x y => simp [encode, decode_family9]
  | ldI addr => simp [encode, decode_familyA]
  | jpV0 addr => simp [encode, decode_familyB]
  | rnd x nn => simp [encode, decode_familyC]
  | drw x y n => simp [encode, decode_familyD]
  | skp x | sknp x => simp [encode, decode_familyE, decodeFamilyE]
  | ldVxDt x | ldVxK x | ldDtVx x | ldStVx x | addI x | ldF x | ldB x | storeRegs x | loadRegs x =>
    simp [encode, decode_familyF, decodeFamilyF]

/-- What the first two bytes decode to, with the bytes after them left over (R36, R48). -/
theorem decodeBytes_word {w : Word} {i : Instr} (rest : List Byte) (h : decode w = .ok i) :
    decodeBytes (highByte w :: lowByte w :: rest) = .ok (i, rest) := by
  rw [decodeBytes, highByte_append_lowByte, h]; rfl

/-- Settles O2: `decode_encode` on the word, and on the two bytes because they join to the word. -/
theorem encodeThenDecodeIsIdentity : Obligations.EncodeThenDecodeIsIdentity := fun _ wf =>
  ⟨decode_encode wf, fun rest => decodeBytes_word rest (decode_encode wf)⟩

/-! ## Encoding a decoded word -/

section
variable {w : Word} {f : Nibble}

theorem wordNNN_eq (fam : fieldFam w = f) : wordNNN f (fieldAddr w) = w := by rw [← fam, wordNNN_fields]

theorem wordXNN_eq {nn : Byte} (fam : fieldFam w = f) (low : fieldNN w = nn) : wordXNN f (fieldX w) nn = w := by
  rw [← fam, ← low, wordXNN_fields]

theorem wordXYN_eq {n : Nibble} (fam : fieldFam w = f) (low : fieldN w = n) :
    wordXYN f (fieldX w) (fieldY w) n = w := by
  rw [← fam, ← low, wordXYN_fields]

theorem decodeFamily8_ok {i : Instr} (fam : fieldFam w = 0x8#4) (h : decodeFamily8 w = .ok i) :
    i.wellFormed = true ∧ encode i = w := by
  unfold decodeFamily8 at h
  split_ifs at h <;> cases h <;> exact ⟨rfl, wordXYN_eq fam ‹_›⟩

theorem decodeFamilyE_ok {i : Instr} (fam : fieldFam w = 0xE#4) (h : decodeFamilyE w = .ok i) :
    i.wellFormed = true ∧ encode i = w := by
  unfold decodeFamilyE at h
  split_ifs at h <;> cases h <;> exact ⟨rfl, wordXNN_eq fam ‹_›⟩

theorem decodeFamilyF_ok {i : Instr} (fam : fieldFam w = 0xF#4) (h : decodeFamilyF w = .ok i) :
    i.wellFormed = true ∧ encode i = w := by
  unfold decodeFamilyF at h
  split_ifs at h <;> cases h <;> exact ⟨rfl, wordXNN_eq fam ‹_›⟩

/-- A word of family 0 is kept by its instruction: an address that is one of the two fixed ones makes the fixed word. -/
theorem decodeFamily0_ok (fam : fieldFam w = 0x0#4) :
    (decodeFamily0 w).wellFormed = true ∧ encode (decodeFamily0 w) = w := by
  have word : wordNNN 0x0#4 (fieldAddr w) = w := wordNNN_eq fam
  unfold decodeFamily0
  split_ifs with cls ret
  · exact ⟨rfl, cls.symm⟩
  · exact ⟨rfl, ret.symm⟩
  · refine ⟨?_, word⟩
    simp only [Instr.wellFormed, sysAddrOk, Bool.and_eq_true, bne_iff_ne]
    exact ⟨fun h => cls (by rw [← word, h]; decide), fun h => ret (by rw [← word, h]; decide)⟩

/-- What a decoded word is, whatever its family: the word of a well-formed instruction. -/
theorem encode_of_decode {i : Instr} (h : decode w = .ok i) : i.wellFormed = true ∧ encode i = w := by
  rcases nibble_cases (fieldFam w) with fam | fam | fam | fam | fam | fam | fam | fam | fam | fam | fam | fam | fam | fam |
    fam | fam
  · rw [decode_family0 fam] at h; cases h; exact decodeFamily0_ok fam
  · rw [decode_family1 fam] at h; cases h; exact ⟨rfl, wordNNN_eq fam⟩
  · rw [decode_family2 fam] at h; cases h; exact ⟨rfl, wordNNN_eq fam⟩
  · rw [decode_family3 fam] at h; cases h; exact ⟨rfl, wordXNN_eq fam rfl⟩
  · rw [decode_family4 fam] at h; cases h; exact ⟨rfl, wordXNN_eq fam rfl⟩
  · rw [decode_family5 fam] at h; split_ifs at h with n; cases h; exact ⟨rfl, wordXYN_eq fam n⟩
  · rw [decode_family6 fam] at h; cases h; exact ⟨rfl, wordXNN_eq fam rfl⟩
  · rw [decode_family7 fam] at h; cases h; exact ⟨rfl, wordXNN_eq fam rfl⟩
  · exact decodeFamily8_ok fam (decode_family8 fam ▸ h)
  · rw [decode_family9 fam] at h; split_ifs at h with n; cases h; exact ⟨rfl, wordXYN_eq fam n⟩
  · rw [decode_familyA fam] at h; cases h; exact ⟨rfl, wordNNN_eq fam⟩
  · rw [decode_familyB fam] at h; cases h; exact ⟨rfl, wordNNN_eq fam⟩
  · rw [decode_familyC fam] at h; cases h; exact ⟨rfl, wordXNN_eq fam rfl⟩
  · rw [decode_familyD fam] at h; cases h; exact ⟨rfl, wordXYN_eq fam rfl⟩
  · exact decodeFamilyE_ok fam (decode_familyE fam ▸ h)
  · exact decodeFamilyF_ok fam (decode_familyF fam ▸ h)

end

/-- Settles O3: `encode_of_decode`, at every word. -/
theorem decodeThenEncodeIsIdentity : Obligations.DecodeThenEncodeIsIdentity := fun _ _ => encode_of_decode

/-! ## The table of unrecognized words (R54) -/

section
variable (w : Word)

theorem unrecognizedWord_iff_fields : Machine.UnrecognizedWord w ↔
    (fieldFam w = 0x5#4 ∧ fieldN w ≠ 0x0#4) ∨
    (fieldFam w = 0x8#4 ∧ fieldN w ∈ [0x8#4, 0x9#4, 0xA#4, 0xB#4, 0xC#4, 0xD#4, 0xF#4]) ∨
    (fieldFam w = 0x9#4 ∧ fieldN w ≠ 0x0#4) ∨
    (fieldFam w = 0xE#4 ∧ fieldNN w ∉ [0x9E#8, 0xA1#8]) ∨
    (fieldFam w = 0xF#4 ∧
      fieldNN w ∉ [0x07#8, 0x0A#8, 0x15#8, 0x18#8, 0x1E#8, 0x29#8, 0x33#8, 0x55#8, 0x65#8]) := by
  simp [Machine.UnrecognizedWord, ← fieldFam_toNat, ← fieldN_toNat, ← fieldNN_toNat, BitVec.toNat_eq]

theorem decodeFamily8_rejects_iff : (∃ why, decodeFamily8 w = .error why) ↔
    fieldN w ∈ [0x8#4, 0x9#4, 0xA#4, 0xB#4, 0xC#4, 0xD#4, 0xF#4] := by
  rcases nibble_cases (fieldN w) with n | n | n | n | n | n | n | n | n | n | n | n | n | n | n | n <;>
    simp [decodeFamily8, n]

theorem decodeFamilyE_rejects_iff : (∃ why, decodeFamilyE w = .error why) ↔ fieldNN w ∉ [0x9E#8, 0xA1#8] := by
  unfold decodeFamilyE
  split_ifs <;> simp [*]

theorem decodeFamilyF_rejects_iff : (∃ why, decodeFamilyF w = .error why) ↔
    fieldNN w ∉ [0x07#8, 0x0A#8, 0x15#8, 0x18#8, 0x1E#8, 0x29#8, 0x33#8, 0x55#8, 0x65#8] := by
  unfold decodeFamilyF
  split_ifs <;> simp [*]

theorem decode_rejects_iff : (∃ why, decode w = .error why) ↔ Machine.UnrecognizedWord w := by
  rw [unrecognizedWord_iff_fields]
  rcases nibble_cases (fieldFam w) with fam | fam | fam | fam | fam | fam | fam | fam | fam | fam | fam | fam | fam | fam |
    fam | fam
  · simp [decode_family0, fam]
  · simp [decode_family1, fam]
  · simp [decode_family2, fam]
  · simp [decode_family3, fam]
  · simp [decode_family4, fam]
  · rw [decode_family5 fam]; split_ifs with n <;> simp [fam, n]
  · simp [decode_family6, fam]
  · simp [decode_family7, fam]
  · rw [decode_family8 fam, decodeFamily8_rejects_iff]; simp [fam]
  · rw [decode_family9 fam]; split_ifs with n <;> simp [fam, n]
  · simp [decode_familyA, fam]
  · simp [decode_familyB, fam]
  · simp [decode_familyC, fam]
  · simp [decode_familyD, fam]
  · rw [decode_familyE fam, decodeFamilyE_rejects_iff]; simp [fam]
  · rw [decode_familyF fam, decodeFamilyF_rejects_iff]; simp [fam]

theorem decodeFamily8_ne_truncated : decodeFamily8 w ≠ .error .truncated := by
  unfold decodeFamily8; split_ifs <;> nofun

theorem decodeFamilyE_ne_truncated : decodeFamilyE w ≠ .error .truncated := by
  unfold decodeFamilyE; split_ifs <;> nofun

theorem decodeFamilyF_ne_truncated : decodeFamilyF w ≠ .error .truncated := by
  unfold decodeFamilyF; split_ifs <;> nofun

/-- A word is two bytes: only `decodeBytes` can answer that there are too few (R48). -/
theorem decode_ne_truncated : decode w ≠ .error .truncated := by
  unfold decode
  split
  case h_6 | h_10 => split_ifs <;> nofun
  case h_9 => exact decodeFamily8_ne_truncated w
  case h_15 => exact decodeFamilyE_ne_truncated w
  case h_16 => exact decodeFamilyF_ne_truncated w
  all_goals nofun

end

/-- Settles O5: family by family, and no branch of the decoder answers that bytes are missing. -/
theorem unrecognizedWordsAreThoseOfTheTable : Obligations.UnrecognizedWordsAreThoseOfTheTable := fun w =>
  ⟨decode_rejects_iff w, decode_ne_truncated w⟩

/-! ## The opcode map (R52) -/

section
variable {w : Word} {f : Nibble} {i : Instr}

theorem decode_of_word (wf : i.wellFormed = true) (word : encode i = w) : decode w = .ok i := word ▸ decode_encode wf

/-! A word that satisfies a row decodes to the row's instruction with the word's fields as operands: one lemma per layout
(R50), whose hypothesis `word` says what the instruction's word is. -/

theorem decode_of_nnn (word : encode i = wordNNN f (fieldAddr w)) (wf : i.wellFormed = true)
    (sat : w &&& 0xF000#16 = wordNNN f 0) : decode w = .ok i :=
  decode_of_word wf (word.trans (wordNNN_eq ((and_maskFam_iff w f).mp sat)))

theorem decode_of_xnn (word : encode i = wordXNN f (fieldX w) (fieldNN w)) (wf : i.wellFormed = true)
    (sat : w &&& 0xF000#16 = wordNNN f 0) : decode w = .ok i :=
  decode_of_word wf (word.trans (wordXNN_eq ((and_maskFam_iff w f).mp sat) rfl))

theorem decode_of_xyn (word : encode i = wordXYN f (fieldX w) (fieldY w) (fieldN w)) (wf : i.wellFormed = true)
    (sat : w &&& 0xF000#16 = wordNNN f 0) : decode w = .ok i :=
  decode_of_word wf (word.trans (wordXYN_eq ((and_maskFam_iff w f).mp sat) rfl))

theorem decode_of_xy {n : Nibble} (word : encode i = wordXYN f (fieldX w) (fieldY w) n) (wf : i.wellFormed = true)
    (sat : w &&& 0xF00F#16 = wordXYN f 0 0 n) : decode w = .ok i := by
  obtain ⟨fam, low⟩ := (and_maskFamN_iff w f n).mp sat
  exact decode_of_word wf (word.trans (wordXYN_eq fam low))

theorem decode_of_xss {nn : Byte} (word : encode i = wordXNN f (fieldX w) nn) (wf : i.wellFormed = true)
    (sat : w &&& 0xF0FF#16 = wordXNN f 0 nn) : decode w = .ok i := by
  obtain ⟨fam, low⟩ := (and_maskFamNN_iff w f nn).mp sat
  exact decode_of_word wf (word.trans (wordXNN_eq fam low))

end

/-- A row that a word satisfies is the row of what the word decodes to; the two words with a row of their own satisfy the
row of `SYS` as well, and the table puts theirs first (R52, R53). -/
theorem decode_of_row {w : Word} {r : OpcodeRow} (row : r ∈ opcodeMap) (sat : w &&& r.mask = r.bits)
    (notCls : w ≠ 0x00E0#16) (notRet : w ≠ 0x00EE#16) : ∃ i, decode w = .ok i ∧ i.row = r.order := by
  have whole : w &&& 0xFFFF#16 = w := BitVec.and_allOnes
  simp only [opcodeMap, opcodeRowsA, opcodeRowsB, opcodeRowsC, List.cons_append, List.nil_append, List.mem_cons,
    List.not_mem_nil, or_false] at row
  rcases row with rfl | rfl | rfl | rfl | rfl | rfl | rfl | rfl | rfl | rfl | rfl | rfl | rfl | rfl | rfl | rfl | rfl |
    rfl | rfl | rfl | rfl | rfl | rfl | rfl | rfl | rfl | rfl | rfl | rfl | rfl | rfl | rfl | rfl | rfl | rfl
  · exact absurd (whole ▸ sat) notCls
  · exact absurd (whole ▸ sat) notRet
  · exact ⟨.sys _, decode_family0_sys ((and_maskFam_iff w 0x0#4).mp sat) notCls notRet, rfl⟩
  · exact ⟨.jp _, decode_of_nnn rfl rfl sat, rfl⟩
  · exact ⟨.call _, decode_of_nnn rfl rfl sat, rfl⟩
  · exact ⟨.seImm _ _, decode_of_xnn rfl rfl sat, rfl⟩
  · exact ⟨.sneImm _ _, decode_of_xnn rfl rfl sat, rfl⟩
  · exact ⟨.seReg _ _, decode_of_xy rfl rfl sat, rfl⟩
  · exact ⟨.ldImm _ _, decode_of_xnn rfl rfl sat, rfl⟩
  · exact ⟨.addImm _ _, decode_of_xnn rfl rfl sat, rfl⟩
  · exact ⟨.ldReg _ _, decode_of_xy rfl rfl sat, rfl⟩
  · exact ⟨.orReg _ _, decode_of_xy rfl rfl sat, rfl⟩
  · exact ⟨.andReg _ _, decode_of_xy rfl rfl sat, rfl⟩
  · exact ⟨.xorReg _ _, decode_of_xy rfl rfl sat, rfl⟩
  · exact ⟨.addReg _ _, decode_of_xy rfl rfl sat, rfl⟩
  · exact ⟨.subReg _ _, decode_of_xy rfl rfl sat, rfl⟩
  · exact ⟨.shr _ _, decode_of_xy rfl rfl sat, rfl⟩
  · exact ⟨.subnReg _ _, decode_of_xy rfl rfl sat, rfl⟩
  · exact ⟨.shl _ _, decode_of_xy rfl rfl sat, rfl⟩
  · exact ⟨.sneReg _ _, decode_of_xy rfl rfl sat, rfl⟩
  · exact ⟨.ldI _, decode_of_nnn rfl rfl sat, rfl⟩
  · exact ⟨.jpV0 _, decode_of_nnn rfl rfl sat, rfl⟩
  · exact ⟨.rnd _ _, decode_of_xnn rfl rfl sat, rfl⟩
  · exact ⟨.drw _ _ _, decode_of_xyn rfl rfl sat, rfl⟩
  · exact ⟨.skp _, decode_of_xss rfl rfl sat, rfl⟩
  · exact ⟨.sknp _, decode_of_xss rfl rfl sat, rfl⟩
  · exact ⟨.ldVxDt _, decode_of_xss rfl rfl sat, rfl⟩
  · exact ⟨.ldVxK _, decode_of_xss rfl rfl sat, rfl⟩
  · exact ⟨.ldDtVx _, decode_of_xss rfl rfl sat, rfl⟩
  · exact ⟨.ldStVx _, decode_of_xss rfl rfl sat, rfl⟩
  · exact ⟨.addI _, decode_of_xss rfl rfl sat, rfl⟩
  · exact ⟨.ldF _, decode_of_xss rfl rfl sat, rfl⟩
  · exact ⟨.ldB _, decode_of_xss rfl rfl sat, rfl⟩
  · exact ⟨.storeRegs _, decode_of_xss rfl rfl sat, rfl⟩
  · exact ⟨.loadRegs _, decode_of_xss rfl rfl sat, rfl⟩

theorem mapRow_statement (i : Instr) : Laws.MapRow.Statement i :=
  match i with
  | .cls => Laws.MapRow.cls
  | .ret => Laws.MapRow.ret
  | .sys addr => Laws.MapRow.sys addr
  | .jp addr => Laws.MapRow.jp addr
  | .call addr => Laws.MapRow.call addr
  | .seImm x nn => Laws.MapRow.seImm x nn
  | .sneImm x nn => Laws.MapRow.sneImm x nn
  | .seReg x y => Laws.MapRow.seReg x y
  | .ldImm x nn => Laws.MapRow.ldImm x nn
  | .addImm x nn => Laws.MapRow.addImm x nn
  | .ldReg x y => Laws.MapRow.ldReg x y
  | .orReg x y => Laws.MapRow.orReg x y
  | .andReg x y => Laws.MapRow.andReg x y
  | .xorReg x y => Laws.MapRow.xorReg x y
  | .addReg x y => Laws.MapRow.addReg x y
  | .subReg x y => Laws.MapRow.subReg x y
  | .shr x y => Laws.MapRow.shr x y
  | .subnReg x y => Laws.MapRow.subnReg x y
  | .shl x y => Laws.MapRow.shl x y
  | .sneReg x y => Laws.MapRow.sneReg x y
  | .ldI addr => Laws.MapRow.ldI addr
  | .jpV0 addr => Laws.MapRow.jpV0 addr
  | .rnd x nn => Laws.MapRow.rnd x nn
  | .drw x y n => Laws.MapRow.drw x y n
  | .skp x => Laws.MapRow.skp x
  | .sknp x => Laws.MapRow.sknp x
  | .ldVxDt x => Laws.MapRow.ldVxDt x
  | .ldVxK x => Laws.MapRow.ldVxK x
  | .ldDtVx x => Laws.MapRow.ldDtVx x
  | .ldStVx x => Laws.MapRow.ldStVx x
  | .addI x => Laws.MapRow.addI x
  | .ldF x => Laws.MapRow.ldF x
  | .ldB x => Laws.MapRow.ldB x
  | .storeRegs x => Laws.MapRow.storeRegs x
  | .loadRegs x => Laws.MapRow.loadRegs x

theorem rowOf_mem (i : Instr) : Laws.MapRow.rowOf i ∈ opcodeMap := by
  have lastRow : i.row ≤ 35 := by cases i <;> simp [Instr.row]
  have inside : i.row - 1 < opcodeMap.length := Nat.lt_of_le_of_lt (Nat.pred_le_pred lastRow) (by decide)
  rw [Laws.MapRow.rowOf, List.getD_eq_getElem _ _ inside]
  exact List.getElem_mem inside

/-- The row of a decoded instruction is in the map under its number, and the word satisfies it: the family `MapRow` at the
word that the instruction encodes to. -/
theorem row_of_decode {w : Word} {i : Instr} (h : decode w = .ok i) : ∃ r ∈ opcodeMap, w &&& r.mask = r.bits := by
  obtain ⟨wf, word⟩ := encode_of_decode h
  exact ⟨_, rowOf_mem i, word ▸ (mapRow_statement i wf).2⟩

/-- Settles O4: after the two words with a row of their own, any row that a word satisfies is its instruction's, and a word
that decodes satisfies one. -/
theorem decoderFollowsOpcodeMap : Obligations.DecoderFollowsOpcodeMap := by
  intro w
  by_cases cls : w = 0x00E0#16
  · subst cls; exact ⟨.cls, by decide, by decide⟩
  by_cases ret : w = 0x00EE#16
  · subst ret; exact ⟨.ret, by decide, by decide⟩
  split
  case h_1 r first =>
    have sat : w &&& r.mask = r.bits := by simpa using List.find?_some first
    exact decode_of_row (List.mem_of_find?_eq_some first) sat cls ret
  case h_2 noRow =>
    cases answer : decode w with
    | error why => exact ⟨why, rfl⟩
    | ok i =>
      obtain ⟨r, row, sat⟩ := row_of_decode answer
      exact absurd (decide_eq_true sat) (List.find?_eq_none.mp noRow r row)
/-! ## Sample words -/

/-- Settles O1: each clause evaluates the decoder at one word. -/
theorem decodeReadsSampleWords : Obligations.DecodeReadsSampleWords := by
  unfold Obligations.DecodeReadsSampleWords; decide

end Sys2Proof
end

section
/-! PROOFS. The step cycle and control flow (40_step_cycle.md, 41_control_flow.md): no-ops, the computed jump,
call and return, the key skips, the self-jump. -/

namespace Sys2Proof.Machine

/-! ## The step cycle -/

/-- Settles O6: the word that the statement joins from two bytes is the word that the step fetches. -/
theorem stepRunsTheDecodedInstruction : Obligations.StepRunsTheDecodedInstruction := fun s _ running decodes =>
  step_instr running ((fetched_eq_decode_memRead s).trans decodes)

theorem exec_sys (addr : Addr) (s : State) : exec (.sys addr) s = .next s := rfl

/-- Settles O8: a word below 0x1000 is of family 0, where all but the two fixed words decode to `SYS`. -/
theorem sysAddrIsNoOp : Obligations.SysAddrIsNoOp := by
  refine ⟨exec_sys, fun s running w word below notCls notRet => ?_⟩
  have fam : fieldFam w = 0x0#4 := BitVec.eq_of_toNat_eq ((fieldFam_toNat w).trans (Nat.div_eq_of_lt below))
  have fetch : fetched s = .ok (.sys (fieldAddr w)) := by
    rw [fetched_eq_decode_memRead, ← word, decode_family0_sys fam notCls notRet]
  rw [step_instr running fetch, exec_sys, State.advancePc_eq]

/-! ## The computed jump -/

theorem exec_jpV0 (addr : Addr) (s : State) : exec (.jpV0 addr) s = .next (s.setPc (jumpV0Target s addr)) := rfl

theorem jumpV0Target_toNat (s : State) (addr : Addr) :
    (jumpV0Target s addr).toNat = ((s.reg 0).toNat + addr.toNat) % 65536 := by
  rw [jumpV0Target, BitVec.toNat_add, wordOfByte_toNat, addrOperand_toNat]

/-- Settles O12: the one write is to `PC`, and the sum of words is the sum modulo 65536. -/
theorem jumpV0AddsRegisterZero : Obligations.JumpV0AddsRegisterZero := fun addr s =>
  ⟨_, exec_jpV0 addr s, jumpV0Target_toNat s addr, frame_setPc s _⟩

/-! ## Call and return -/

theorem exec_call_room {s : State} (addr : Addr) (room : s.sp.val < 16) :
    exec (.call addr) s = .next ((s.push s.pc).setPc (addrOperand addr)) := if_neg (Nat.ne_of_lt room)

theorem exec_call_full {s : State} (addr : Addr) (full : s.sp.val = 16) :
    exec (.call addr) s = .next (raiseFault .stackOverflow s) := if_pos full

theorem exec_ret_entry {s : State} (entry : 0 < s.sp.val) : exec .ret s = .next (s.pop.setPc s.top) :=
  if_neg (Nat.ne_of_gt entry)

theorem exec_ret_empty {s : State} (empty : s.sp.val = 0) : exec .ret s = .next (raiseFault .stackUnderflow s) :=
  if_pos empty

theorem frame_raiseFault (s : State) (c : FaultLatch) : Frame { pc := true, fault := true } s (raiseFault c s) := by
  simp [Frame]

/-- Settles O13: a push, then a write to `PC`. -/
theorem callPushesReturnAddress : Obligations.CallPushesReturnAddress := fun addr s room =>
  ⟨_, exec_call_room addr room, addrOperand_toNat addr, s.push_sp _ room, s.push_stackCell _ room, by simp [Frame]⟩

/-- Settles O14: the top of the stack goes to `PC`, and only the count changes. -/
theorem returnPopsIntoPc : Obligations.ReturnPopsIntoPc := fun s entry =>
  ⟨_, exec_ret_entry entry, fun k last => s.top_eq k last.symm, Nat.succ_pred_eq_of_pos entry, fun _ => rfl,
    by simp [Frame]⟩

/-- Settles O15: the fault rewinds `PC` and sets the latch, so after a fetch nothing but the latch has changed. -/
theorem stackFaultsRollBackTheStep : Obligations.StackFaultsRollBackTheStep := by
  refine ⟨fun addr s full => ?call, fun s empty => ?ret, fun addr s running fetch full => ?stepCall,
    fun s running fetch empty => ?stepRet⟩
  case call => exact ⟨_, exec_call_full addr full, rfl, rfl, frame_raiseFault s _⟩
  case ret => exact ⟨_, exec_ret_empty empty, rfl, rfl, frame_raiseFault s _⟩
  case stepCall => rw [step_instr running fetch, exec_call_full (s := s.advancePc) addr full, raiseFault_advancePc]
  case stepRet => rw [step_instr running fetch, exec_ret_empty (s := s.advancePc) empty, raiseFault_advancePc]

/-- Settles O18: the return reads the cell that the call wrote, the last one below `SP`. -/
theorem returnUndoesCall : Obligations.ReturnUndoesCall := by
  intro addr s room
  refine ⟨_, exec_call_room addr room, fun t' sameSp sameCells => ?_⟩
  have sp : t'.sp.val = s.sp.val + 1 := (congrArg Fin.val sameSp).trans (s.push_sp s.pc room)
  have cells (k : Fin 16) (below : k.val < s.sp.val + 1) :
      t'.stackCell k = if k.val = s.sp.val then s.pc else s.stackCell k := by
    rw [sameCells k (by rw [← sameSp, sp]; exact below)]
    exact s.push_stackCell s.pc room k
  refine ⟨_, exec_ret_entry (by omega), ?_, ?_, fun k below => ?_⟩
  · show t'.top = s.pc
    rw [t'.top_eq ⟨s.sp.val, room⟩ sp, cells _ (Nat.lt_succ_self _), if_pos rfl]
  · exact Fin.ext (by show t'.sp.val - 1 = s.sp.val; omega)
  · show t'.stackCell k = s.stackCell k
    rw [cells k (by omega), if_neg (by omega)]

/-! ## The key skips -/

theorem exec_skp (x : RegNum) (s : State) : exec (.skp x) s = .next (s.skipIf (s.keyHeld (keyOperand s x))) := rfl

theorem exec_sknp (x : RegNum) (s : State) : exec (.sknp x) s = .next (s.skipIf (!s.keyHeld (keyOperand s x))) := rfl

/-- Settles O17: the key operand is the register's value modulo 16. -/
theorem skipsTestTheKeyInVx : Obligations.SkipsTestTheKeyInVx := by
  intro x k s number
  have operand : keyOperand s x = k := Fin.ext number
  exact ⟨exec_skip (exec_skp x s) (by rw [operand]), exec_skip (exec_sknp x s) (by rw [operand, Bool.not_eq_true'])⟩

/-! ## The self-jump -/

/-- The self-jump of R120 in the layout of R50: the family 1 and the 12-bit address. -/
theorem or_ofNat_eq_wordNNN (a : Nat) :
    0x1000#16 ||| BitVec.ofNat 16 (a % 4096) = wordNNN 0x1#4 (BitVec.ofNat 12 a) := by
  have low : (BitVec.ofNat 16 (a % 4096)).toNat = (BitVec.ofNat 12 a).toNat := by
    rw [BitVec.toNat_ofNat, BitVec.toNat_ofNat, Nat.mod_eq_of_lt (by omega)]
  apply BitVec.eq_of_toNat_eq
  rw [wordNNN, BitVec.toNat_append, BitVec.toNat_or, low]
  rfl

/-- Settles O19: inside the 4096 addresses the jump's target is `PC` itself. -/
theorem selfJumpIsAFixedPoint : Obligations.SelfJumpIsAFixedPoint := by
  rintro s running ⟨inside, word⟩
  have fetch : fetched s = .ok (.jp (BitVec.ofNat 12 s.pc.toNat)) := by
    rw [fetched, word, or_ofNat_eq_wordNNN, decode_family1 (fieldFam_wordNNN ..), fieldAddr_wordNNN]
  have target : addrOperand (BitVec.ofNat 12 s.pc.toNat) = s.pc := by
    apply BitVec.eq_of_toNat_eq
    rw [addrOperand_toNat, BitVec.toNat_ofNat, Nat.mod_eq_of_lt (by omega)]
  rw [step_instr running fetch, exec_jp, target]
  rfl

end Sys2Proof.Machine
end

section
/-! PROOFS. Register arithmetic (42_alu.md): the subtractions, the results that land in `VF`, the random byte. -/

namespace Sys2Proof.Machine

theorem exec_subReg (x y : RegNum) (s : State) : exec (.subReg x y) s =
    .next (setFlagThenResult x (greaterFlag (s.reg x) (s.reg y)) (s.reg x - s.reg y) s) := rfl

theorem exec_subnReg (x y : RegNum) (s : State) : exec (.subnReg x y) s =
    .next (setFlagThenResult x (greaterFlag (s.reg y) (s.reg x)) (s.reg y - s.reg x) s) := rfl

theorem exec_rnd (x : RegNum) (nn : Byte) (s : State) :
    exec (.rnd x nn) s = .next (randomInto s.nextDraw x nn s.consumeDraw) := rfl

theorem greaterFlag_eq (a b : Byte) : greaterFlag a b = if a.toNat > b.toNat then 1 else 0 := by
  simp only [greaterFlag, flagByte, decide_eq_true_eq]

theorem byte_sub_toNat (a b : Byte) : (a - b).toNat = (a.toNat + 256 - b.toNat) % 256 := by
  have := b.isLt
  rw [BitVec.toNat_sub]; omega

/-- Settles O23: the difference of bytes is modulo 256, and the flag is the strict comparison of the two operands. -/
theorem subtractsSetStrictlyGreater : Obligations.SubtractsSetStrictlyGreater := fun x y s other =>
  ⟨⟨_, exec_subReg x y s, by rw [reg_setFlagThenResult_dest, byte_sub_toNat],
      by rw [reg_setFlagThenResult_vf s other, greaterFlag_eq], frame_setFlagThenResult x _ _ s⟩,
    ⟨_, exec_subnReg x y s, by rw [reg_setFlagThenResult_dest, byte_sub_toNat],
      by rw [reg_setFlagThenResult_vf s other, greaterFlag_eq], frame_setFlagThenResult x _ _ s⟩⟩

/-- With `VF` as the destination flag and result go to one register (R91). -/
theorem frame_setFlagThenResult_vf (flag result : Byte) (s : State) :
    Frame { regs := [vf] } s (setFlagThenResult vf flag result s) :=
  (frame_setReg s vf flag).trans (frame_setReg _ vf result)

/-- Settles O25: the result is written last, so `VF` holds it. -/
theorem resultStaysInFlagRegister : Obligations.ResultStaysInFlagRegister := fun y s =>
  ⟨⟨_, exec_addReg vf y s, by rw [reg_setFlagThenResult_dest, BitVec.toNat_add], frame_setFlagThenResult_vf ..⟩,
    ⟨_, exec_subReg vf y s, by rw [reg_setFlagThenResult_dest, byte_sub_toNat], frame_setFlagThenResult_vf ..⟩,
    ⟨_, exec_subnReg vf y s, by rw [reg_setFlagThenResult_dest, byte_sub_toNat], frame_setFlagThenResult_vf ..⟩,
    ⟨_, exec_shr vf y s, by rw [reg_setFlagThenResult_dest, toNat_shiftRight_one], frame_setFlagThenResult_vf ..⟩,
    ⟨_, exec_shl vf y s, by rw [reg_setFlagThenResult_dest, toNat_shiftLeft_one], frame_setFlagThenResult_vf ..⟩⟩

theorem frame_randomInto_consumeDraw (r : Byte) (x : RegNum) (nn : Byte) (s : State) :
    Frame { regs := [x], draws := true } s (randomInto r x nn s.consumeDraw) := by
  simp +contextual [Frame, randomInto]

/-- Settles O26: one register write of the masked draw, after the draw is counted. -/
theorem randomIsTheDrawMasked : Obligations.RandomIsTheDrawMasked := fun x nn s =>
  ⟨_, exec_rnd x nn s, fun b _ => by rw [randomInto, State.reg_setReg_same, BitVec.getLsbD_and]; rfl, rfl,
    frame_randomInto_consumeDraw _ x nn s⟩

end Sys2Proof.Machine
end

section
/-! PROOFS. Memory (20_memory.md) and the instructions that transfer to and from it (43_index_memory.md). -/

namespace Sys2Proof.Machine

theorem reduceAddr_reduceAddr (a : Nat) : reduceAddr (reduceAddr a) = reduceAddr a := Nat.mod_mod a 4096

/-- Settles O28: an access depends on the reduced address alone. -/
theorem memoryReadsTheLatestWriteModulo4096 : Obligations.MemoryReadsTheLatestWriteModulo4096 := fun s a b x =>
  ⟨s.memRead_congr (reduceAddr_reduceAddr a).symm, by rw [State.memWrite, ← reduceAddr_reduceAddr a]; rfl,
    s.memRead_memWrite a b x⟩

/-! ## Decimal digits -/

theorem exec_ldB (x : RegNum) (s : State) : exec (.ldB x) s =
    .next (((s.memWrite (indexAddr s 0) (bcdHundreds (s.reg x))).memWrite (indexAddr s 1) (bcdTens (s.reg x))).memWrite
      (indexAddr s 2) (bcdUnits (s.reg x))) := rfl

section
variable (b : Byte)

theorem bcdHundreds_toNat : (bcdHundreds b).toNat = b.toNat / 100 := by
  have := b.isLt
  rw [bcdHundreds, BitVec.toNat_ofNat, Nat.mod_eq_of_lt (by omega)]

theorem bcdTens_toNat : (bcdTens b).toNat = b.toNat / 10 % 10 := by
  rw [bcdTens, BitVec.toNat_ofNat, Nat.mod_eq_of_lt (by omega)]

theorem bcdUnits_toNat : (bcdUnits b).toNat = b.toNat % 10 := by
  rw [bcdUnits, BitVec.toNat_ofNat, Nat.mod_eq_of_lt (by omega)]

end

/-- Different offsets below 4096 from `I` are different bytes of memory (R35, R93). -/
theorem reduceAddr_indexAddr_ne (s : State) {j k : Nat} (hj : j < 4096) (hk : k < 4096) (ne : j ≠ k) :
    reduceAddr (indexAddr s j) ≠ reduceAddr (indexAddr s k) := fun e => ne (indexAddr_inj hj hk e)

/-- A write at a byte of the `n` from `I` upward stays inside them (R93). -/
theorem frame_memWrite_indexAddr {s t : State} {k n : Nat} (x : Byte) (below : k < n) :
    Frame { mem := indexRange s n } t (t.memWrite (indexAddr s k) x) := by
  have inside : reduceAddr (indexAddr s k) ∈ indexRange s n := List.mem_map.mpr ⟨k, List.mem_range.mpr below, rfl⟩
  have other (a : Nat) (outside : reduceAddr a ∉ indexRange s n) :
      (t.memWrite (indexAddr s k) x).memRead a = t.memRead a :=
    t.memRead_memWrite_ne x fun e => outside (e ▸ inside)
  simpa [Frame] using other

/-- Settles O29: the three bytes are different, so each keeps its digit, and the digits are those of the decimal
system. -/
theorem bcdStoreWritesThreeDigits : Obligations.BcdStoreWritesThreeDigits := by
  intro x s
  refine ⟨_, exec_ldB x s, ?_⟩
  generalize leaves : ((s.memWrite (indexAddr s 0) (bcdHundreds (s.reg x))).memWrite (indexAddr s 1)
    (bcdTens (s.reg x))).memWrite (indexAddr s 2) (bcdUnits (s.reg x)) = t
  have hundreds : t.memRead (indexAddr s 0) = bcdHundreds (s.reg x) := by
    rw [← leaves, State.memRead_memWrite_ne _ _ (reduceAddr_indexAddr_ne s (by omega) (by omega) (by omega)),
      State.memRead_memWrite_ne _ _ (reduceAddr_indexAddr_ne s (by omega) (by omega) (by omega)),
      State.memRead_memWrite_same]
  have tens : t.memRead (indexAddr s 1) = bcdTens (s.reg x) := by
    rw [← leaves, State.memRead_memWrite_ne _ _ (reduceAddr_indexAddr_ne s (by omega) (by omega) (by omega)),
      State.memRead_memWrite_same]
  have units : t.memRead (indexAddr s 2) = bcdUnits (s.reg x) := by rw [← leaves, State.memRead_memWrite_same]
  have frame : Frame { mem := indexRange s 3 } s t := leaves ▸
    ((frame_memWrite_indexAddr _ (by omega)).trans (frame_memWrite_indexAddr _ (by omega))).trans
      (frame_memWrite_indexAddr _ (by omega))
  rw [indexAddr] at hundreds tens units
  rw [Nat.add_zero] at hundreds
  rw [hundreds, tens, units, bcdHundreds_toNat, bcdTens_toNat, bcdUnits_toNat]
  exact ⟨by omega, by omega, by omega, frame⟩

/-! ## Register blocks -/

theorem exec_storeRegs (x : RegNum) (s : State) :
    exec (.storeRegs x) s = .next (forAscending (x.val + 1) storeOneReg s) := rfl

theorem exec_loadRegs (x : RegNum) (s : State) :
    exec (.loadRegs x) s = .next (forAscending (x.val + 1) loadOneReg s) := rfl

/-- Settles O30: the loop's effect at its last turn, with register numbers as the offsets. -/
theorem blockStoreCopiesRegisters : Obligations.BlockStoreCopiesRegisters := fun x s =>
  ⟨_, exec_storeRegs x s, fun k upTo =>
      ((storeLoop_memRead _ x.isLt s).1 k.val (Nat.lt_succ_of_le upTo)).trans (by rw [Fin.ofNat_val_eq_self]),
    frame_storeLoop _ x.isLt s⟩

/-- Settles O31: the loop's effect at its last turn; a register that the row does not list is above `x`. -/
theorem blockLoadCopiesMemory : Obligations.BlockLoadCopiesMemory := fun x s =>
  ⟨_, exec_loadRegs x s, fun k upTo => (loadLoop_reg _ x.isLt s k).trans (if_pos (Nat.lt_succ_of_le upTo)),
    frame_loadLoop _ x.isLt s fun r unlisted below =>
      unlisted (List.mem_filter.mpr ⟨List.mem_finRange r, decide_eq_true (Nat.le_of_lt_succ below)⟩)⟩

/-- Settles O32: the load reads back what the store wrote, and neither writes `I` or a register above `x`. -/
theorem blockStoreThenLoadKeepsRegisters : Obligations.BlockStoreThenLoadKeepsRegisters := by
  intro x s
  obtain ⟨t, store, stored, storeRegs, -, -, storeI, -⟩ := blockStoreCopiesRegisters x s
  obtain ⟨u, load, loaded, loadRegs, -, -, loadI, -, -, -, -, loadMem, -⟩ := blockLoadCopiesMemory x t
  refine ⟨t, u, store, load, fun r => ?_, (loadI rfl).trans (storeI rfl), fun a => loadMem a (by simp)⟩
  by_cases upTo : r.val ≤ x.val
  · rw [loaded r upTo, storeI rfl, stored r upTo]
  · have unlisted : r ∉ (List.finRange 16).filter fun q => q ≤ x := fun listed =>
      upTo (of_decide_eq_true (List.mem_filter.mp listed).2)
    rw [loadRegs r unlisted, storeRegs r List.not_mem_nil]

/-- Settles O33: the two stored bytes are at the two addresses that the fetch reads. -/
theorem storedCodeIsFetched : Obligations.StoredCodeIsFetched := by
  intro x k j s next upTo atPc
  obtain ⟨t, store, stored, -, storePc, -⟩ := blockStoreCopiesRegisters x s
  refine ⟨t, store, ?_⟩
  have hi : t.memRead s.pc.toNat = s.reg k := (t.memRead_congr atPc.symm).trans (stored k (by omega))
  have sameAddr : reduceAddr (s.pc.toNat + 1) = reduceAddr (s.i.toNat + j.val) := by unfold reduceAddr; omega
  have lo : t.memRead (s.pc.toNat + 1) = s.reg j := (t.memRead_congr sameAddr).trans (stored j upTo)
  rw [fetchWord, State.memRead2, storePc rfl, hi, lo]

end Sys2Proof.Machine
end

section
/-! PROOFS. The display (44_display.md): clear, the drawn sprite, and a sprite drawn twice. -/

namespace Sys2Proof.Machine

theorem exec_cls (s : State) : exec .cls s = .next s.clearDisplay := rfl

theorem frame_clearDisplay (s : State) : Frame { fb := true } s s.clearDisplay := by simp [Frame]

/-- Settles O34: the clear writes the framebuffer alone, with every pixel off. -/
theorem clearTurnsEveryPixelOff : Obligations.ClearTurnsEveryPixelOff := fun s =>
  ⟨_, exec_cls s, s.pixel_clearDisplay, frame_clearDisplay s⟩

/-! ## The place of a sprite pixel on the screen (R101) -/

theorem eq_screenRow_iff (r : Fin 32) (y row : Nat) : r = screenRow (y % 32 + row) ↔ r.val = (y + row) % 32 := by
  rw [Fin.ext_iff, screenRow, Fin.val_ofNat, Nat.mod_add_mod]

theorem eq_screenColumn_iff (c : Fin 64) (x bit : Nat) :
    c = screenColumn (x % 64 + bit) ↔ c.val = (x + bit) % 64 := by
  rw [Fin.ext_iff, screenColumn, Fin.val_ofNat, Nat.mod_add_mod]

section
variable {X Y base n : Nat} {s : State} {r : Fin 32} {c : Fin 64}

theorem spriteCovers_iff : SpriteCovers (X % 64) (Y % 32) base n s r c ↔
    ∃ row bit, row < n ∧ bit < 8 ∧ r.val = (Y + row) % 32 ∧ c.val = (X + bit) % 64 ∧
      (s.memRead (base + row)).getLsbD (7 - bit) = true := by
  simp only [SpriteCovers, RowCovers, eq_screenRow_iff, eq_screenColumn_iff, spriteBit]
  constructor
  · rintro ⟨row, hrow, hr, bit, hbit, hc, on⟩; exact ⟨row, bit, hrow, hbit, hr, hc, on⟩
  · rintro ⟨row, bit, hrow, hbit, hr, hc, on⟩; exact ⟨row, hrow, hr, bit, hbit, hc, on⟩

/-- A sprite of at most 15 rows has at most one of its pixels at a place, so that pixel says whether it covers it. -/
theorem spriteCovers_at {row bit : Nat} (small : n < 16) (hrow : row < n) (hbit : bit < 8)
    (hr : r.val = (Y + row) % 32) (hc : c.val = (X + bit) % 64) :
    SpriteCovers (X % 64) (Y % 32) base n s r c ↔ (s.memRead (base + row)).getLsbD (7 - bit) = true := by
  rw [spriteCovers_iff]
  constructor
  · rintro ⟨row', bit', hrow', hbit', hr', hc', on⟩
    obtain rfl : row' = row := by omega
    obtain rfl : bit' = bit := by omega
    exact on
  · exact fun on => ⟨row, bit, hrow, hbit, hr, hc, on⟩

theorem spriteHits_iff : SpriteHits (X % 64) (Y % 32) base n s ↔
    ∃ row bit, ∃ (r : Fin 32) (c : Fin 64), row < n ∧ bit < 8 ∧ r.val = (Y + row) % 32 ∧ c.val = (X + bit) % 64 ∧
      (s.memRead (base + row)).getLsbD (7 - bit) = true ∧ s.pixel r c = true := by
  simp only [SpriteHits, RowHits, ← eq_screenRow_iff, ← eq_screenColumn_iff, spriteBit]
  constructor
  · rintro ⟨row, hrow, bit, hbit, on, hit⟩; exact ⟨row, bit, _, _, hrow, hbit, rfl, rfl, on, hit⟩
  · rintro ⟨row, bit, _, _, hrow, hbit, rfl, rfl, on, hit⟩; exact ⟨row, hrow, bit, hbit, on, hit⟩

end

/-! ## Drawing -/

theorem exec_drw (x y : RegNum) (n : Fin 16) (s : State) : exec (.drw x y n) s =
    .next (drawSprite ((s.reg x).toNat % 64) ((s.reg y).toNat % 32) s.i.toNat n.val (s.setReg vf 0)) := rfl

theorem frame_drw (sx sy base n : Nat) (s : State) :
    Frame { regs := [vf], fb := true } s (drawSprite sx sy base n (s.setReg vf 0)) := by
  have resetFlag : Frame { regs := [vf], fb := true } s (s.setReg vf 0) := by
    simp only [Frame, State.reg_setReg, List.mem_singleton]
    exact ⟨fun r h => if_neg h, by simp⟩
  exact resetFlag.trans (frame_drawSprite sx sy base n _)

open Classical in
/-- What a sprite of at most 15 rows does after `VF <- 0`, which changes neither a pixel nor a byte of memory. -/
theorem drawSprite_after_flagReset (sx sy base n : Nat) (small : n < 16) (s : State) :
    (∀ r c, (drawSprite sx sy base n (s.setReg vf 0)).pixel r c =
      (s.pixel r c ^^ decide (SpriteCovers sx sy base n s r c))) ∧
    (drawSprite sx sy base n (s.setReg vf 0)).reg vf = if SpriteHits sx sy base n s then 1 else 0 := by
  obtain ⟨pixels, flag⟩ := drawSprite_effect sx sy base n small (s.setReg vf 0)
  rw [State.reg_setReg_same] at flag
  exact ⟨pixels, flag⟩

/-- Settles O35: the loop's effect, with the covered places and the hits written as coordinates. -/
theorem drawXorsTheSprite : Obligations.DrawXorsTheSprite := by
  classical
  intro x y n s
  obtain ⟨pixels, flag⟩ := drawSprite_after_flagReset ((s.reg x).toNat % 64) ((s.reg y).toNat % 32) s.i.toNat n.val
    n.isLt s
  refine ⟨_, exec_drw x y n s, fun row bit r c hrow hbit hr hc => ?_, fun r c nowhere => ?_, ?_, ?_, frame_drw ..⟩
  · rw [pixels]
    congr 1
    rw [Bool.eq_iff_iff, decide_eq_true_iff, spriteCovers_at n.isLt hrow hbit hr hc]
  · rw [pixels, decide_eq_false, Bool.xor_false]
    intro covered
    obtain ⟨row, bit, hrow, hbit, hr, hc, -⟩ := spriteCovers_iff.mp covered
    exact nowhere row bit hrow hbit ⟨hr, hc⟩
  · rw [flag]; split
    · exact .inr rfl
    · exact .inl rfl
  · rw [flag, ← spriteHits_iff]
    split <;> simp [*]

/-- Settles O36: the first draw leaves the place and the bytes of the sprite, so the second toggles the same pixels, and
hits exactly those that the first turned on. -/
theorem drawingTwiceRestoresTheScreen : Obligations.DrawingTwiceRestoresTheScreen := by
  intro x y n s xOther yOther
  obtain ⟨t, first, covered, uncovered, flag, hit, regs, -, -, i, -, -, -, -, mem, -⟩ := drawXorsTheSprite x y n s
  obtain ⟨u, second, covered', uncovered', flag', hit', -⟩ := drawXorsTheSprite x y n t
  have sameX : t.reg x = s.reg x := regs x (by simpa using xOther)
  have sameY : t.reg y = s.reg y := regs y (by simpa using yOther)
  have sameBytes (a : Nat) : t.memRead a = s.memRead a := mem a List.not_mem_nil
  rw [sameX, sameY] at covered' uncovered' hit'
  rw [i rfl] at covered' hit'
  simp only [sameBytes] at covered' hit'
  refine ⟨t, u, first, second, fun r c => ?_, fun clear => ⟨?_, ?_, flag'⟩⟩
  · by_cases place : ∃ row bit, row < n.val ∧ bit < 8 ∧
        r.val = ((s.reg y).toNat + row) % 32 ∧ c.val = ((s.reg x).toNat + bit) % 64
    · obtain ⟨row, bit, hrow, hbit, hr, hc⟩ := place
      rw [covered' row bit r c hrow hbit hr hc, covered row bit r c hrow hbit hr hc, Bool.xor_assoc, Bool.xor_self,
        Bool.xor_false]
    · have nowhere (row bit : Nat) (hrow : row < n.val) (hbit : bit < 8) :
          ¬ (r.val = ((s.reg y).toNat + row) % 32 ∧ c.val = ((s.reg x).toNat + bit) % 64) :=
        fun ⟨hr, hc⟩ => place ⟨row, bit, hrow, hbit, hr, hc⟩
      rw [uncovered' r c nowhere, uncovered r c nowhere]
  · refine flag.resolve_right fun one => ?_
    obtain ⟨_, _, r, c, -, -, -, -, -, on⟩ := hit.mp one
    exact Bool.false_ne_true ((clear r c).symm.trans on)
  · rw [hit']
    constructor
    · rintro ⟨row, bit, _, _, hrow, hbit, -, -, on, -⟩; exact ⟨row, bit, hrow, hbit, on⟩
    · rintro ⟨row, bit, hrow, hbit, on⟩
      refine ⟨row, bit, ⟨_, Nat.mod_lt _ (by decide)⟩, ⟨_, Nat.mod_lt _ (by decide)⟩, hrow, hbit, rfl, rfl, on, ?_⟩
      rw [covered row bit _ _ hrow hbit rfl rfl, clear, on]; rfl

end Sys2Proof.Machine
end

section
/-! PROOFS. Timers (45_timers_keywait.md), reset and the host's operations (46_host_operations.md, 70_reset_and_hazards.md). -/

namespace Sys2Proof.Machine

/-! ## The timer instructions -/

theorem exec_ldVxDt (x : RegNum) (s : State) : exec (.ldVxDt x) s = .next (s.setReg x s.dt) := rfl

theorem exec_ldDtVx (x : RegNum) (s : State) : exec (.ldDtVx x) s = .next (s.setDt (s.reg x)) := rfl

theorem exec_ldStVx (x : RegNum) (s : State) : exec (.ldStVx x) s = .next (s.setSt (s.reg x)) := rfl

theorem frame_setDt (s : State) (b : Byte) : Frame { dt := true } s (s.setDt b) := by simp [Frame]

theorem frame_setSt (s : State) (b : Byte) : Frame { st := true } s (s.setSt b) := by simp [Frame]

theorem soundOn_iff (s : State) : soundOn s = true ↔ s.st.toNat ≠ 0 := by
  rw [soundOn, bne_iff_ne, ne_eq, BitVec.toNat_eq]; rfl

/-- Settles O37: each of the three is one write, and the sound follows `ST` in every state. -/
theorem timerInstructionsCopyBytes : Obligations.TimerInstructionsCopyBytes :=
  ⟨fun s => ⟨soundOn_iff s, rfl⟩, fun x s =>
    ⟨⟨_, exec_ldVxDt x s, s.reg_setReg_same x s.dt, frame_setReg s x _⟩,
      ⟨_, exec_ldDtVx x s, rfl, frame_setDt s _⟩,
      ⟨_, exec_ldStVx x s, rfl, soundOn_iff _, frame_setSt s _⟩⟩⟩

/-! ## Ticks -/

theorem tickTimers_running {s : State} (running : s.fault = .none) :
    tickTimers s = (s.setDt (timerTick s.dt)).setSt (timerTick s.st) := by
  rw [tickTimers, if_neg (by simp [State.faulted, running])]

theorem tickTimers_faulted {s : State} (faulted : s.fault ≠ .none) : tickTimers s = s :=
  if_pos (s.faulted_eq_true.mpr faulted)

theorem tickTimers_dt {s : State} (running : s.fault = .none) : (tickTimers s).dt.toNat = s.dt.toNat - 1 := by
  rw [tickTimers_running running, State.setSt_dt, State.setDt_dt, timerTick_toNat]

theorem tickTimers_st {s : State} (running : s.fault = .none) : (tickTimers s).st.toNat = s.st.toNat - 1 := by
  rw [tickTimers_running running, State.setSt_st, timerTick_toNat]

@[simp] theorem tickTimers_fault (s : State) : (tickTimers s).fault = s.fault := by unfold tickTimers; split <;> rfl

@[simp] theorem tickTimers_mem (s : State) : (tickTimers s).mem = s.mem := by unfold tickTimers; split <;> rfl

/-- Settles O39: a tick is one `timerTick` of each timer, which takes one and stops at 0. -/
theorem tickCountsBothTimersDown : Obligations.TickCountsBothTimersDown := fun s =>
  ⟨fun running => ⟨tickTimers_dt running, tickTimers_st running, frame_tickTimers s⟩, tickTimers_faulted⟩

/-- Settles O40, by induction on the number of ticks: the first tick takes one, and the rest take what is left. -/
theorem ticksReachZeroAndStay : Obligations.TicksReachZeroAndStay := by
  intro m
  induction m with
  | zero => exact fun s _ => ⟨s, rfl, rfl, rfl, Frame.refl _ s⟩
  | succ m ih =>
    intro s running
    obtain ⟨t, run, dt, st, frame⟩ := ih (tickTimers s) ((tickTimers_fault s).trans running)
    refine ⟨t, run, ?_, ?_, (frame_tickTimers s).trans frame⟩
    · rw [dt, tickTimers_dt running, Nat.sub_sub, Nat.add_comm]
    · rw [st, tickTimers_st running, Nat.sub_sub, Nat.add_comm]

/-! ## Reset -/

theorem timerChoice_pos (choice : Fin 255) : 1 ≤ (BitVec.ofNat 8 (choice.val + 1)).toNat := by
  rw [BitVec.toNat_ofNat, Nat.mod_eq_of_lt (by omega)]
  exact Nat.le_add_left 1 _

/-- Past the font's eighty bytes memory reads as 0 after reset (R29, R30). -/
theorem background_after_font {a : Nat} (past : 0x050 ≤ a) : Memory.background a = 0 := by
  rw [Memory.background, List.getElem?_eq_none (show fontTable.length ≤ a from past)]; rfl

/-- Settles O41: an unlisted address reads as the font table and then as 0, and memory lists nothing. -/
theorem resetLeavesTheInitialState : Obligations.ResetLeavesTheInitialState := by
  refine ⟨⟨rfl, timerChoice_pos _, timerChoice_pos _⟩, ?_⟩
  rintro d e s rfl
  refine ⟨rfl, rfl, rfl, rfl, rfl, rfl, fun r => ?reg, fun k => ?cell, fun r c => ?pixel, fun k => ?key, ?font,
    fun a past inside => ?rest⟩
  case reg => simp [State.reg, State.resetWith]
  case cell => simp [State.stackCell, State.resetWith]
  case pixel => simp [State.pixel, State.resetWith]
  case key => simp [State.keyHeld, State.resetWith]
  case font => rfl
  case rest =>
    have reduced : reduceAddr a = a := Nat.mod_eq_of_lt inside
    show Memory.background (reduceAddr a) = 0
    rw [reduced, background_after_font past]

/-- Settles O42: `reset()` does not look at the state but for the count of draws. -/
theorem hostResetWorksInEveryState : Obligations.HostResetWorksInEveryState := fun s => ⟨hostReset s, rfl, rfl, rfl⟩

/-! ## Keys -/

theorem setKeys_running {s : State} (mask : Word) (running : s.fault = .none) :
    setKeys mask s = { s with keys := Vector.ofFn fun k : Fin 16 => mask.getLsbD k.val } := by
  rw [setKeys, if_neg (by simp [State.faulted, running])]

theorem setKeys_faulted {s : State} (mask : Word) (faulted : s.fault ≠ .none) : setKeys mask s = s :=
  if_pos (s.faulted_eq_true.mpr faulted)

/-- Settles O43: a running machine takes the mask's bits as its keys. -/
theorem setKeysReplacesEveryFlag : Obligations.SetKeysReplacesEveryFlag := by
  refine fun mask s => ⟨fun running => ?_, setKeys_faulted mask⟩
  rw [setKeys_running mask running]
  exact ⟨fun k => by simp [State.keyHeld], rfl⟩

/-! ## Loading a program -/

theorem loadProgram_faulted {s : State} (bytes : List Byte) (faulted : s.fault ≠ .none) : loadProgram bytes s = s :=
  if_pos (s.faulted_eq_true.mpr faulted)

theorem loadStatus_faulted {s : State} (bytes : List Byte) (faulted : s.fault ≠ .none) : loadStatus bytes s = .ok :=
  if_pos (s.faulted_eq_true.mpr faulted)

section
variable {s : State} {bytes : List Byte} (running : s.fault = .none)
include running

theorem loadProgram_long (long : bytes.length > 3584) : loadProgram bytes s = s := by
  rw [loadProgram, if_neg (by simp [State.faulted, running]), if_pos long]

theorem loadStatus_long (long : bytes.length > 3584) : loadStatus bytes s = .loadTooLarge := by
  rw [loadStatus, if_neg (by simp [State.faulted, running]), if_pos long]

theorem loadProgram_fits (fits : bytes.length ≤ 3584) : loadProgram bytes s = installFrom 0x200 bytes s := by
  rw [loadProgram, if_neg (by simp [State.faulted, running]), if_neg (Nat.not_lt.mpr fits)]

theorem loadStatus_fits (fits : bytes.length ≤ 3584) : loadStatus bytes s = .ok := by
  rw [loadStatus, if_neg (by simp [State.faulted, running]), if_neg (Nat.not_lt.mpr fits)]

end

/-- Whatever is loaded, and whether it fits or not, a load is some writes to memory (R114). -/
theorem loadProgram_keeps {α : Type} (f : State → α) (h : ∀ a x t, f (t.memWrite a x) = f t) (bytes : List Byte)
    (s : State) : f (loadProgram bytes s) = f s := by
  unfold loadProgram
  split
  · rfl
  · split
    · rfl
    · exact installFrom_keeps _ _ _ f h

theorem loadProgram_wf {s : State} (bytes : List Byte) (canonical : Memory.wf s.mem) :
    Memory.wf (loadProgram bytes s).mem := by
  unfold loadProgram
  split
  · exact canonical
  · split
    · exact canonical
    · exact installFrom_wf _ bytes s canonical

theorem frame_installFrom {a : Nat} {bytes : List Byte} (fits : a + bytes.length ≤ 4096) (s : State) :
    Frame { mem := (List.range bytes.length).map fun k => reduceAddr (a + k) } s (installFrom a bytes s) := by
  have keeps {α : Type} (f : State → α) (h : ∀ a x t, f (t.memWrite a x) = f t) : f (installFrom a bytes s) = f s :=
    installFrom_keeps a bytes s f h
  refine ⟨fun r _ => keeps (·.reg r) fun _ _ _ => rfl, fun _ => keeps State.pc fun _ _ _ => rfl,
    fun _ => ⟨keeps State.sp fun _ _ _ => rfl, fun k => keeps (·.stackCell k) fun _ _ _ => rfl⟩,
    fun _ => keeps State.i fun _ _ _ => rfl, fun _ => keeps State.dt fun _ _ _ => rfl,
    fun _ => keeps State.st fun _ _ _ => rfl, fun _ r c => keeps (·.pixel r c) fun _ _ _ => rfl,
    fun k => keeps (·.keyHeld k) fun _ _ _ => rfl, fun c unlisted => ?_, fun _ => keeps State.fault fun _ _ _ => rfl,
    fun _ => keeps State.draws fun _ _ _ => rfl⟩
  rw [installFrom_memRead a bytes s fits, if_neg]
  rintro ⟨above, below⟩
  refine unlisted (List.mem_map.mpr ⟨reduceAddr c - a, List.mem_range.mpr (by omega), ?_⟩)
  rw [Nat.add_sub_cancel' above, reduceAddr_reduceAddr]

/-- Settles O44: one clause per case of the guard; an image that fits ends inside memory, so none of its bytes wraps. -/
theorem loadProgramCopiesTheImage : Obligations.LoadProgramCopiesTheImage := by
  refine fun bytes s => ⟨fun faulted => ⟨loadStatus_faulted bytes faulted, loadProgram_faulted bytes faulted⟩,
    fun running long => ⟨loadStatus_long running long, loadProgram_long running long⟩, fun running fits => ?_⟩
  have inMemory : 0x200 + bytes.length ≤ 4096 := by omega
  rw [loadProgram_fits running fits]
  refine ⟨loadStatus_fits running fits, fun k x here => ?_, frame_installFrom inMemory s⟩
  have inside : k < bytes.length := (List.getElem?_eq_some_iff.mp here).1
  have reduced : reduceAddr (0x200 + k) = 0x200 + k := Nat.mod_eq_of_lt (by omega)
  rw [installFrom_memRead _ _ _ inMemory, reduced, if_pos (by omega), Nat.add_sub_cancel_left,
    List.getD_eq_getElem?_getD, here]
  rfl

end Sys2Proof.Machine
end

section
/-! PROOFS. The whole machine: every instruction keeps to its row of the access matrix (10_state.md section 8),
and what follows for `PC`, faults, timers, keys, the screen and memory. -/

namespace Sys2Proof.Machine

/-! ## The access matrix -/

/-- Settles O45: for each instruction the frame of the operation that is its meaning. -/
theorem instructionsKeepToTheAccessMatrix : Obligations.InstructionsKeepToTheAccessMatrix := by
  intro i s
  cases i with
  | cls => exact ⟨_, exec_cls s, frame_clearDisplay s⟩
  | ret =>
    by_cases empty : s.sp.val = 0
    · exact ⟨_, exec_ret_empty empty, by rw [footprint, if_pos empty]; exact frame_raiseFault s _⟩
    · exact ⟨_, exec_ret_entry (Nat.pos_of_ne_zero empty), by rw [footprint, if_neg empty]; simp [Frame]⟩
  | sys addr => exact ⟨_, exec_sys addr s, Frame.refl _ s⟩
  | jp addr => exact ⟨_, exec_jp addr s, frame_setPc s _⟩
  | call addr =>
    by_cases full : s.sp.val = 16
    · exact ⟨_, exec_call_full addr full, by rw [footprint, if_pos full]; exact frame_raiseFault s _⟩
    · exact ⟨_, exec_call_room addr (by omega), by rw [footprint, if_neg full]; simp [Frame]⟩
  | seImm x nn => exact ⟨_, exec_seImm x nn s, frame_skipIf s _⟩
  | sneImm x nn => exact ⟨_, exec_sneImm x nn s, frame_skipIf s _⟩
  | seReg x y => exact ⟨_, exec_seReg x y s, frame_skipIf s _⟩
  | ldImm x nn => exact ⟨_, exec_ldImm x nn s, frame_setReg s x _⟩
  | addImm x nn => exact ⟨_, exec_addImm x nn s, frame_setReg s x _⟩
  | ldReg x y => exact ⟨_, exec_ldReg x y s, frame_setReg s x _⟩
  | orReg x y => exact ⟨_, exec_orReg x y s, frame_setReg s x _⟩
  | andReg x y => exact ⟨_, exec_andReg x y s, frame_setReg s x _⟩
  | xorReg x y => exact ⟨_, exec_xorReg x y s, frame_setReg s x _⟩
  | addReg x y => exact ⟨_, exec_addReg x y s, frame_setFlagThenResult x _ _ s⟩
  | subReg x y => exact ⟨_, exec_subReg x y s, frame_setFlagThenResult x _ _ s⟩
  | shr x y => exact ⟨_, exec_shr x y s, frame_setFlagThenResult x _ _ s⟩
  | subnReg x y => exact ⟨_, exec_subnReg x y s, frame_setFlagThenResult x _ _ s⟩
  | shl x y => exact ⟨_, exec_shl x y s, frame_setFlagThenResult x _ _ s⟩
  | sneReg x y => exact ⟨_, exec_sneReg x y s, frame_skipIf s _⟩
  | ldI addr => exact ⟨_, exec_ldI addr s, frame_setI s _⟩
  | jpV0 addr => exact ⟨_, exec_jpV0 addr s, frame_setPc s _⟩
  | rnd x nn => exact ⟨_, exec_rnd x nn s, frame_randomInto_consumeDraw _ x nn s⟩
  | drw x y n => exact ⟨_, exec_drw x y n s, frame_drw _ _ _ _ s⟩
  | skp x => exact ⟨_, exec_skp x s, frame_skipIf s _⟩
  | sknp x => exact ⟨_, exec_sknp x s, frame_skipIf s _⟩
  | ldVxDt x => exact ⟨_, exec_ldVxDt x s, frame_setReg s x _⟩
  | ldVxK x =>
    cases found : s.lowestHeldKey with
    | none =>
      have noKey := s.lowestHeldKey_none.mp found
      exact ⟨_, exec_ldVxK_none x noKey, by rw [footprint, found]; exact frame_setPc s _⟩
    | some k => exact ⟨_, exec_ldVxK_held x found, by rw [footprint, found]; exact frame_setReg s x _⟩
  | ldDtVx x => exact ⟨_, exec_ldDtVx x s, frame_setDt s _⟩
  | ldStVx x => exact ⟨_, exec_ldStVx x s, frame_setSt s _⟩
  | addI x => exact ⟨_, exec_addI x s, frame_setI s _⟩
  | ldF x => exact ⟨_, exec_ldF x s, frame_setI s _⟩
  | ldB x =>
    obtain ⟨t, run, -, -, -, frame⟩ := bcdStoreWritesThreeDigits x s
    exact ⟨t, run, frame⟩
  | storeRegs x => exact ⟨_, exec_storeRegs x s, frame_storeLoop _ x.isLt s⟩
  | loadRegs x =>
    obtain ⟨t, run, -, frame⟩ := blockLoadCopiesMemory x s
    exact ⟨t, run, frame⟩

/-- An instruction has one next state. -/
theorem exec_next_unique {i : Instr} {s t u : State} (one : exec i s = .next t) (other : exec i s = .next u) : t = u :=
  Host.Outcome.next.inj (one.symm.trans other)

theorem exec_frame {i : Instr} {s t : State} (run : exec i s = .next t) : Frame (footprint i s) s t := by
  obtain ⟨u, runs, frame⟩ := instructionsKeepToTheAccessMatrix i s
  exact exec_next_unique runs run ▸ frame

/-! ### Which instructions list an element -/

section
variable {i : Instr} {s : State}

theorem footprint_fault (written : (footprint i s).fault = true) :
    (∃ addr, i = .call addr ∧ s.sp.val = 16) ∨ (i = .ret ∧ s.sp.val = 0) := by
  cases i with
  | call addr => rw [footprint] at written; split at written; exacts [.inl ⟨addr, rfl, ‹_›⟩, nomatch written]
  | ret => rw [footprint] at written; split at written; exacts [.inr ⟨rfl, ‹_›⟩, nomatch written]
  | ldVxK x => rw [footprint] at written; split at written <;> cases written
  | _ => cases written

theorem footprint_dt (written : (footprint i s).dt = true) : ∃ x, i = .ldDtVx x := by
  cases i with
  | ldDtVx x => exact ⟨x, rfl⟩
  | call | ret | ldVxK => rw [footprint] at written; split at written <;> cases written
  | _ => cases written

theorem footprint_st (written : (footprint i s).st = true) : ∃ x, i = .ldStVx x := by
  cases i with
  | ldStVx x => exact ⟨x, rfl⟩
  | call | ret | ldVxK => rw [footprint] at written; split at written <;> cases written
  | _ => cases written

theorem footprint_fb (written : (footprint i s).fb = true) : i = .cls ∨ ∃ x y n, i = .drw x y n := by
  cases i with
  | cls => exact .inl rfl
  | drw x y n => exact .inr ⟨x, y, n, rfl⟩
  | call | ret | ldVxK => rw [footprint] at written; split at written <;> cases written
  | _ => cases written

theorem footprint_mem (written : (footprint i s).mem ≠ []) : (∃ x, i = .ldB x) ∨ ∃ x, i = .storeRegs x := by
  cases i with
  | ldB x => exact .inl ⟨x, rfl⟩
  | storeRegs x => exact .inr ⟨x, rfl⟩
  | call | ret | ldVxK => rw [footprint] at written; split at written <;> cases written rfl
  | _ => cases written rfl

end

/-! ## Steps -/

/-- All that the state after a step can be (R59). -/
theorem step_next_cases {s t : State} (h : step s = .next t) :
    t = s ∨ t = s.advancePc ∨ (s.fault = .none ∧ ∃ i, fetched s = .ok i ∧ exec i s.advancePc = .next t) := by
  rcases step_cases s with ⟨-, same⟩ | ⟨running, i, fetch, run⟩ | ⟨-, why, -, noOp⟩
  · exact .inl (Host.Outcome.next.inj (h.symm.trans same))
  · exact .inr (.inr ⟨running, i, fetch, run.symm.trans h⟩)
  · exact .inr (.inl (Host.Outcome.next.inj (h.symm.trans noOp)))

theorem exec_answers (i : Instr) (s : State) : ∃ t, exec i s = .next t := by
  obtain ⟨t, run, -⟩ := instructionsKeepToTheAccessMatrix i s
  exact ⟨t, run⟩

theorem step_answers (s : State) : ∃ t, step s = .next t := by
  rcases step_cases s with ⟨-, same⟩ | ⟨-, i, -, run⟩ | ⟨-, why, -, noOp⟩
  · exact ⟨s, same⟩
  · exact run ▸ exec_answers i s.advancePc
  · exact ⟨s.advancePc, noOp⟩

/-- Settles O9: no arm of the dispatch refuses or faults, so neither does a step. -/
theorem everyStepAnswersANextState : Obligations.EveryStepAnswersANextState := ⟨exec_answers, step_answers⟩

/-! ### Where a step leaves `PC` -/

/-- After a step, an instruction that is a skip has advanced `PC` by 4 or by 2 (R65). -/
theorem pc_after_skip {i : Instr} {s t : State} {test : Bool} {condition : Prop} [Decidable condition]
    (run : exec i s.advancePc = .next t) (meaning : exec i s.advancePc = .next (s.advancePc.skipIf test))
    (tests : test = true ↔ condition) : t.pc = if condition then s.pc + 4 else s.pc + 2 := by
  have twice : s.pc + 2 + 2 = s.pc + 4 := BitVec.add_assoc ..
  rw [exec_next_unique run meaning, State.skipIf_pc, State.advancePc_pc, twice]
  simp only [tests]

/-- Settles O10: an instruction that does not list `PC` leaves it advanced by the fetch; the others write it as their
meaning says. -/
theorem pcAfterEachStep : Obligations.PcAfterEachStep := by
  intro s i running fetch
  obtain ⟨t, run⟩ := exec_answers i s.advancePc
  refine ⟨t, (step_instr running fetch).trans run, ?_⟩
  obtain ⟨-, unlisted, -⟩ := exec_frame run
  cases i with
  | jp addr => rw [exec_next_unique run (exec_jp ..)]; rfl
  | jpV0 addr =>
    rw [exec_next_unique run (exec_jpV0 ..)]
    exact BitVec.eq_of_toNat_eq (jumpV0Target_toNat s.advancePc addr)
  | call addr =>
    by_cases full : s.sp.val = 16
    · rw [exec_next_unique run (exec_call_full (s := s.advancePc) addr full)]
      exact (BitVec.add_sub_cancel s.pc 2).trans (if_pos full).symm
    · have room : s.sp.val < 16 := by omega
      rw [exec_next_unique run (exec_call_room (s := s.advancePc) addr room)]
      exact (if_neg full).symm
  | ret =>
    by_cases empty : s.sp.val = 0
    · rw [exec_next_unique run (exec_ret_empty (s := s.advancePc) empty)]
      exact (BitVec.add_sub_cancel s.pc 2).trans (if_pos empty).symm
    · rw [exec_next_unique run (exec_ret_entry (s := s.advancePc) (Nat.pos_of_ne_zero empty))]
      exact (if_neg empty).symm
  | seImm x nn => exact pc_after_skip run (exec_seImm ..) beq_iff_eq
  | sneImm x nn => exact pc_after_skip run (exec_sneImm ..) bne_iff_ne
  | seReg x y => exact pc_after_skip run (exec_seReg ..) beq_iff_eq
  | sneReg x y => exact pc_after_skip run (exec_sneReg ..) bne_iff_ne
  | skp x => exact pc_after_skip run (exec_skp ..) Iff.rfl
  | sknp x => exact pc_after_skip run (exec_sknp ..) (iff_of_eq (Bool.not_eq_true' _))
  | ldVxK x =>
    cases found : s.lowestHeldKey with
    | none =>
      have noKey := s.lowestHeldKey_none.mp found
      rw [exec_next_unique run (exec_ldVxK_none (s := s.advancePc) x noKey)]
      exact (BitVec.add_sub_cancel s.pc 2).trans (if_pos noKey).symm
    | some k =>
      have someKey : ¬ ∀ k, s.keyHeld k = false := fun noKey => by simp [s.lowestHeldKey_none.mpr noKey] at found
      rw [exec_next_unique run (exec_ldVxK_held (s := s.advancePc) x found)]
      exact (if_neg someKey).symm
  | _ => exact unlisted rfl

/-! ### Timers and keys -/

theorem keys_eq_of_keyHeld {s t : State} (h : ∀ k, t.keyHeld k = s.keyHeld k) : t.keys = s.keys :=
  Vector.ext fun k inside => h ⟨k, inside⟩

/-- Settles O48: no row of the access matrix lists a key, and only the two loads list a timer. -/
theorem stepsNeverTickOrPressKeys : Obligations.StepsNeverTickOrPressKeys := by
  intro s t h
  rcases step_next_cases h with rfl | rfl | ⟨-, i, fetch, run⟩
  · exact ⟨rfl, .inl rfl, .inl rfl⟩
  · exact ⟨rfl, .inl rfl, .inl rfl⟩
  · obtain ⟨-, -, -, -, dt, st, -, keys, -⟩ := exec_frame run
    refine ⟨keys_eq_of_keyHeld keys, ?_, ?_⟩
    · by_cases written : (footprint i s.advancePc).dt = true
      · obtain ⟨x, rfl⟩ := footprint_dt written
        exact .inr ⟨x, fetch, by rw [exec_next_unique run (exec_ldDtVx ..)]; rfl⟩
      · exact .inl (dt (Bool.eq_false_of_not_eq_true written))
    · by_cases written : (footprint i s.advancePc).st = true
      · obtain ⟨x, rfl⟩ := footprint_st written
        exact .inr ⟨x, fetch, by rw [exec_next_unique run (exec_ldStVx ..)]; rfl⟩
      · exact .inl (st (Bool.eq_false_of_not_eq_true written))

/-! ## Host operations -/

/-- All that the state after a step with a given draw can be: that of the step, or that of a running machine's `RND` with
that draw (R111, R117). -/
theorem perform_step_cases {r : Byte} {s t : State} (h : perform (.step r) s = .next t) :
    step s = .next t ∨ ∃ x nn, t = randomInto r x nn s.advancePc.consumeDraw := by
  rcases stepWith_cases r s with ⟨-, x, nn, -, draws⟩ | ⟨-, plain⟩
  · exact .inr ⟨x, nn, Host.Outcome.next.inj (h.symm.trans draws)⟩
  · exact .inl (plain.symm.trans h)

theorem perform_answers (op : HostOp) (s : State) : ∃ t, perform op s = .next t := by
  cases op with
  | reset | load bytes | setKeys mask | tick => exact ⟨_, rfl⟩
  | step r =>
    rcases stepWith_cases r s with ⟨-, x, nn, -, draws⟩ | ⟨-, plain⟩
    · exact ⟨_, draws⟩
    · obtain ⟨t, run⟩ := step_answers s
      exact ⟨t, plain.trans run⟩

/-- A mask changes the keys alone, or nothing (R115). -/
theorem setKeys_eq (mask : Word) (s : State) : ∃ keys, setKeys mask s = { s with keys := keys } := by
  by_cases running : s.fault = .none
  · exact ⟨_, setKeys_running mask running⟩
  · exact ⟨s.keys, setKeys_faulted mask running⟩

/-! ### Faults -/

/-- An instruction that changes the latch is a `CALL` on a full stack or a `RET` on an empty one, and it takes the
fault. -/
theorem exec_fault_cases {i : Instr} {s t : State} (run : exec i s = .next t) (raised : t.fault ≠ s.fault) :
    (∃ addr, i = .call addr ∧ s.sp.val = 16 ∧ t = raiseFault .stackOverflow s) ∨
    (i = .ret ∧ s.sp.val = 0 ∧ t = raiseFault .stackUnderflow s) := by
  obtain ⟨-, -, -, -, -, -, -, -, -, unlisted, -⟩ := exec_frame run
  have written : (footprint i s).fault = true := by
    by_contra h
    exact raised (unlisted (Bool.eq_false_of_not_eq_true h))
  rcases footprint_fault written with ⟨addr, rfl, full⟩ | ⟨rfl, empty⟩
  · exact .inl ⟨addr, rfl, full, exec_next_unique run (exec_call_full addr full)⟩
  · exact .inr ⟨rfl, empty, exec_next_unique run (exec_ret_empty empty)⟩

/-- Settles O46: of the operations only a step can set the latch, and of its instructions only the two. -/
theorem onlyCallAndReturnFault : Obligations.OnlyCallAndReturnFault := by
  intro op s t running performed raised
  cases op with
  | reset => cases performed; exact absurd rfl raised
  | load bytes =>
    cases performed
    exact absurd ((loadProgram_keeps State.fault (fun _ _ _ => rfl) ..).trans running) raised
  | setKeys mask =>
    obtain ⟨keys, changed⟩ := setKeys_eq mask s
    cases performed; rw [changed] at raised; exact absurd running raised
  | tick => cases performed; exact absurd ((tickTimers_fault s).trans running) raised
  | step r =>
    refine ⟨⟨r, rfl⟩, ?_⟩
    rcases perform_step_cases performed with h | ⟨x, nn, rfl⟩
    · rcases step_next_cases h with rfl | rfl | ⟨-, i, fetch, run⟩
      · exact absurd running raised
      · exact absurd running raised
      · rcases exec_fault_cases run fun same => raised (same.trans running) with
          ⟨addr, rfl, full, rfl⟩ | ⟨rfl, empty, rfl⟩
        · exact .inl ⟨addr, fetch, full, raiseFault_advancePc _ s⟩
        · exact .inr ⟨fetch, empty, raiseFault_advancePc _ s⟩
    · exact absurd running raised

/-- A faulted machine answers every operation but `reset()` with no change (R125). -/
theorem perform_faulted {op : HostOp} {s : State} (faulted : s.fault ≠ .none) (notReset : op ≠ .reset) :
    perform op s = .next s := by
  cases op with
  | reset => exact absurd rfl notReset
  | load bytes => exact congrArg _ (loadProgram_faulted bytes faulted)
  | setKeys mask => exact congrArg _ (setKeys_faulted mask faulted)
  | step r => exact stepWith_faulted r faulted
  | tick => exact congrArg _ (tickTimers_faulted faulted)

/-- The first operation of a run, and then the rest (R111). -/
theorem runOps_cons {op : HostOp} {s t : State} (ops : List HostOp) (h : perform op s = .next t) :
    runOps (op :: ops) s = runOps ops t := by rw [runOps, h]

/-- Settles O47, by induction on the operations. -/
theorem faultedMachineIsFrozen : Obligations.FaultedMachineIsFrozen := by
  intro ops s faulted noReset
  induction ops with
  | nil => rfl
  | cons op ops ih =>
    have notReset : op ≠ .reset := fun e => noReset (e ▸ List.mem_cons_self)
    rw [runOps_cons ops (perform_faulted faulted notReset)]
    exact ih fun later => noReset (List.mem_cons_of_mem _ later)

/-! ### The screen and memory -/

/-- A step changes a pixel or a byte of memory only through an instruction whose row lists it. -/
theorem step_changes {s t : State} (h : step s = .next t) :
    ((∃ r c, t.pixel r c ≠ s.pixel r c) → fetched s = .ok .cls ∨ ∃ x y n, fetched s = .ok (.drw x y n)) ∧
    ((∃ a, t.memRead a ≠ s.memRead a) →
      (∃ x, fetched s = .ok (.ldB x)) ∨ ∃ x, fetched s = .ok (.storeRegs x)) := by
  rcases step_next_cases h with rfl | rfl | ⟨-, i, fetch, run⟩
  · exact ⟨fun ⟨_, _, changed⟩ => absurd rfl changed, fun ⟨_, changed⟩ => absurd rfl changed⟩
  · exact ⟨fun ⟨_, _, changed⟩ => absurd rfl changed, fun ⟨_, changed⟩ => absurd rfl changed⟩
  · obtain ⟨-, -, -, -, -, -, pixels, -, bytes, -⟩ := exec_frame run
    constructor
    · rintro ⟨r, c, changed⟩
      have written : (footprint i s.advancePc).fb = true := by
        by_contra unlisted
        exact changed (pixels (Bool.eq_false_of_not_eq_true unlisted) r c)
      rcases footprint_fb written with rfl | ⟨x, y, n, rfl⟩
      · exact .inl fetch
      · exact .inr ⟨x, y, n, fetch⟩
    · rintro ⟨a, changed⟩
      have written : (footprint i s.advancePc).mem ≠ [] := fun none => changed (bytes a (none ▸ List.not_mem_nil))
      rcases footprint_mem written with ⟨x, rfl⟩ | ⟨x, rfl⟩
      · exact .inl ⟨x, fetch⟩
      · exact .inr ⟨x, fetch⟩

/-- Settles O49: the other operations write neither, or are named. -/
theorem onlyDrawsAndStoresChangeScreenAndMemory : Obligations.OnlyDrawsAndStoresChangeScreenAndMemory := by
  intro op s t performed
  cases op with
  | reset => exact ⟨fun _ => .inl rfl, fun _ => .inl rfl⟩
  | load bytes =>
    cases performed
    exact ⟨fun ⟨r, c, changed⟩ => absurd (loadProgram_keeps (·.pixel r c) (fun _ _ _ => rfl) bytes s) changed,
      fun _ => .inr (.inl ⟨bytes, rfl⟩)⟩
  | setKeys mask =>
    obtain ⟨keys, only⟩ := setKeys_eq mask s
    cases performed; rw [only]
    exact ⟨fun ⟨_, _, changed⟩ => absurd rfl changed, fun ⟨_, changed⟩ => absurd rfl changed⟩
  | tick =>
    obtain ⟨-, -, -, -, -, -, pixels, -, bytes, -⟩ := frame_tickTimers s
    cases performed
    exact ⟨fun ⟨r, c, changed⟩ => absurd (pixels rfl r c) changed,
      fun ⟨a, changed⟩ => absurd (bytes a List.not_mem_nil) changed⟩
  | step r =>
    rcases perform_step_cases performed with h | ⟨x, nn, rfl⟩
    · obtain ⟨pixels, bytes⟩ := step_changes h
      exact ⟨fun changed => .inr ⟨⟨r, rfl⟩, pixels changed⟩, fun changed => .inr (.inr ⟨⟨r, rfl⟩, bytes changed⟩)⟩
    · exact ⟨fun ⟨_, _, changed⟩ => absurd rfl changed, fun ⟨_, changed⟩ => absurd rfl changed⟩

end Sys2Proof.Machine
end

section
/-! PROOFS. The invariant of the machine, finite and infinite runs (10_state.md section 7,
46_host_operations.md section 1). -/

namespace Sys2Proof.Machine

/-! ## Memory stays canonical -/

/-- `LD B` and `LD [I]` write through `MemWrite`, which keeps the canonical form; no other instruction touches memory. -/
theorem exec_keeps_wf {i : Instr} {s t : State} (canonical : Memory.wf s.mem) (run : exec i s = .next t) :
    Memory.wf t.mem := by
  cases i with
  | ldB x =>
    rw [exec_next_unique run (exec_ldB x s)]
    exact State.wf_memWrite _ _ (State.wf_memWrite _ _ (State.wf_memWrite _ _ canonical))
  | storeRegs x => rw [exec_next_unique run (exec_storeRegs x s)]; exact storeLoop_wf _ s canonical
  | loadRegs x => rw [exec_next_unique run (exec_loadRegs x s), loadLoop_mem]; exact canonical
  | drw x y n => rw [exec_next_unique run (exec_drw x y n s), drawSprite_mem]; exact canonical
  | ret =>
    by_cases empty : s.sp.val = 0
    · rw [exec_next_unique run (exec_ret_empty empty)]; exact canonical
    · rw [exec_next_unique run (exec_ret_entry (Nat.pos_of_ne_zero empty))]; exact canonical
  | call addr =>
    by_cases full : s.sp.val = 16
    · rw [exec_next_unique run (exec_call_full addr full)]; exact canonical
    · rw [exec_next_unique run (exec_call_room addr (by omega)), State.setPc_mem, State.push_mem]; exact canonical
  | ldVxK x =>
    cases found : s.lowestHeldKey with
    | none => rw [exec_next_unique run (exec_ldVxK_none x (s.lowestHeldKey_none.mp found))]; exact canonical
    | some k => rw [exec_next_unique run (exec_ldVxK_held x found)]; exact canonical
  | seImm | sneImm | seReg | sneReg | skp | sknp =>
    obtain rfl := Host.Outcome.next.inj run
    rw [State.skipIf_mem]; exact canonical
  | _ =>
    obtain rfl := Host.Outcome.next.inj run
    exact canonical

/-- Memory is canonical after every step, with or without a draw of its own. -/
theorem step_keeps_wf {s t : State} (canonical : Memory.wf s.mem) (h : step s = .next t) : Memory.wf t.mem := by
  rcases step_next_cases h with rfl | rfl | ⟨-, i, -, run⟩
  · exact canonical
  · exact canonical
  · exact exec_keeps_wf (s := s.advancePc) canonical run

theorem perform_keeps_wf {op : HostOp} {s t : State} (canonical : Memory.wf s.mem)
    (performed : perform op s = .next t) : Memory.wf t.mem := by
  cases op with
  | reset => cases performed; exact ⟨List.Pairwise.nil, nofun⟩
  | load bytes => cases performed; exact loadProgram_wf bytes canonical
  | setKeys mask =>
    obtain ⟨keys, only⟩ := setKeys_eq mask s
    cases performed; rw [only]; exact canonical
  | tick => cases performed; rw [tickTimers_mem]; exact canonical
  | step r =>
    rcases perform_step_cases performed with h | ⟨x, nn, rfl⟩
    · exact step_keeps_wf canonical h
    · exact canonical

/-! ## The invariant -/

/-- A machine that has raised no fault has nothing to record (R122). -/
theorem faultRecorded_of_running {s : State} (running : s.fault = .none) : FaultRecorded s := by
  rw [FaultRecorded, running]; trivial

/-- The record of a fault holds in the state that the fault leaves, because `PC`, memory and the stack are as they were
before the step (R122, R124). -/
theorem perform_records_fault {op : HostOp} {s t : State} (recorded : FaultRecorded s)
    (performed : perform op s = .next t) : FaultRecorded t := by
  by_cases clear : t.fault = .none
  · exact faultRecorded_of_running clear
  by_cases running : s.fault = .none
  · obtain ⟨-, ⟨addr, fetch, full, rfl⟩ | ⟨fetch, empty, rfl⟩⟩ :=
      onlyCallAndReturnFault op s t running performed clear
    · exact ⟨full, addr, (fetched_congr rfl rfl).trans fetch⟩
    · exact ⟨empty, (fetched_congr rfl rfl).trans fetch⟩
  · have notReset : op ≠ .reset := by
      rintro rfl; cases performed; exact clear rfl
    have same : t = s := Host.Outcome.next.inj (performed.symm.trans (perform_faulted running notReset))
    exact same ▸ recorded

theorem perform_keeps_inv {op : HostOp} {s t : State} (inv : Inv s) (performed : perform op s = .next t) : Inv t :=
  ⟨perform_keeps_wf inv.1 performed, perform_records_fault inv.2 performed⟩

/-- Settles O50: memory lists nothing and the latch is clear. -/
theorem resetMeetsTheInvariant : Obligations.ResetMeetsTheInvariant :=
  ⟨⟨List.Pairwise.nil, nofun⟩, faultRecorded_of_running rfl⟩

/-! ## Labels -/

/-- The step without a label is the step labelled with the free draw (R117). -/
theorem perform_step_nextDraw (s : State) : perform (.step s.nextDraw) s = step s := by
  rcases stepWith_cases s.nextDraw s with ⟨running, x, nn, fetch, draws⟩ | ⟨-, plain⟩
  · rw [step_instr running fetch, exec_rnd]; exact draws
  · exact plain

/-- Settles O51: a step is the step labelled with the free draw, and every operation keeps the invariant. -/
theorem stepKeepsTheInvariant : Obligations.StepKeepsTheInvariant := fun s _ inv h =>
  perform_keeps_inv inv ((perform_step_nextDraw s).trans h)

/-- Settles O52, by induction on the operations: each of them answers, and keeps the invariant. -/
theorem runsKeepTheInvariant : Obligations.RunsKeepTheInvariant := by
  intro ops
  induction ops with
  | nil => exact fun s inv => ⟨s, rfl, inv⟩
  | cons op ops ih =>
    intro s inv
    obtain ⟨t, performed⟩ := perform_answers op s
    rw [runOps_cons ops performed]
    exact ih t (perform_keeps_inv inv performed)

/-- Settles O53: the labelled step is the `RND` with the label's draw, or else the step itself. -/
theorem stepLabelSuppliesTheDraw : Obligations.StepLabelSuppliesTheDraw := by
  refine fun r s => ⟨fun x nn running fetch => ?drawn, ?ignored, perform_step_nextDraw s⟩
  case drawn =>
    refine ⟨_, stepWith_rnd r running fetch, fun b _ => ?_, rfl, rfl, ?_⟩
    · rw [randomInto, State.reg_setReg_same, BitVec.getLsbD_and]
    · simp +contextual [Frame, randomInto]
  case ignored =>
    intro ignores
    rcases stepWith_cases r s with ⟨running, x, nn, fetch, -⟩ | ⟨-, plain⟩
    · rcases ignores with faulted | notRnd
      · exact absurd running faulted
      · exact absurd fetch (notRnd x nn)
    · exact plain

/-! ## Infinite runs -/

/-- The state that an operation leaves. -/
def afterOp (op : HostOp) (s : State) : State :=
  match perform op s with
  | .next t => t
  | .fault _ => s
  | .refused _ => s

theorem perform_eq_afterOp (op : HostOp) (s : State) : perform op s = .next (afterOp op s) := by
  obtain ⟨t, performed⟩ := perform_answers op s
  rw [afterOp, performed]

/-- The states of the run of an infinite sequence of operations from `s`. -/
def statesFrom (ops : Nat → HostOp) (s : State) : Nat → State
  | 0 => s
  | n + 1 => afterOp (ops n) (statesFrom ops s n)

theorem infiniteRun_statesFrom (ops : Nat → HostOp) (s : State) : InfiniteRun ops (statesFrom ops s) :=
  fun n => perform_eq_afterOp (ops n) (statesFrom ops s n)

section
variable {ops : Nat → HostOp} {trace : Nat → State} (run : InfiniteRun ops trace)
include run

/-- What the first `n` operations leave is state `n` of the run (R111). -/
theorem InfiniteRun.runFirst_eq (n : Nat) : runFirst ops n (trace 0) = .next (trace n) := by
  induction n with
  | zero => rfl
  | succ n ih => rw [runFirst_succ ops n _ _ ih, run n]

theorem InfiniteRun.unique {other : Nat → State} (otherRun : InfiniteRun ops other) (start : other 0 = trace 0)
    (n : Nat) : other n = trace n := by
  have sameState := otherRun.runFirst_eq n
  rw [start, run.runFirst_eq n] at sameState
  exact (Host.Outcome.next.inj sameState).symm

theorem InfiniteRun.inv (start : Inv (trace 0)) (n : Nat) : Inv (trace n) := by
  induction n with
  | zero => exact start
  | succ n ih => exact perform_keeps_inv ih (run n)

/-- A faulted state stays through any number of operations without a `reset()` (R125). -/
theorem InfiniteRun.faulted_stays {n : Nat} (k : Nat) (faulted : (trace n).fault ≠ .none)
    (noReset : ∀ m, n ≤ m → m < n + k → ops m ≠ .reset) : trace (n + k) = trace n := by
  induction k with
  | zero => rfl
  | succ k ih =>
    have same := ih fun m above below => noReset m above (by omega)
    have frozen := perform_faulted (same ▸ faulted) (noReset (n + k) (by omega) (by omega))
    exact (Host.Outcome.next.inj ((run (n + k)).symm.trans frozen)).trans same

end

/-- Settles O54: the run is the states that the operations leave one after another, and its prefixes determine it. -/
theorem infiniteRunsExistAndAreUnique : Obligations.InfiniteRunsExistAndAreUnique := fun ops s =>
  have run := infiniteRun_statesFrom ops s
  ⟨statesFrom ops s, rfl, run, run.runFirst_eq, fun _ start otherRun => run.unique otherRun start⟩

/-- Settles O55: every operation keeps the invariant, and none but `reset()` changes a faulted state. -/
theorem infiniteRunsKeepTheInvariant : Obligations.InfiniteRunsKeepTheInvariant := fun _ _ run start =>
  ⟨run.inv start, fun _ k faulted noReset => run.faulted_stays k faulted noReset⟩

/-! ## The delay timer runs out -/

/-- An operation raises the delay timer only if it is a `reset()` or a step that loads it (R104, R109). -/
theorem perform_dt_le {op : HostOp} {s t : State} (running : s.fault = .none) (performed : perform op s = .next t)
    (notReset : op ≠ .reset) (noLoad : ∀ r x, op = .step r → fetched s ≠ .ok (.ldDtVx x)) :
    t.dt.toNat ≤ s.dt.toNat := by
  cases op with
  | reset => exact absurd rfl notReset
  | load bytes => cases performed; exact Nat.le_of_eq (loadProgram_keeps (·.dt.toNat) (fun _ _ _ => rfl) bytes s)
  | setKeys mask =>
    obtain ⟨keys, only⟩ := setKeys_eq mask s
    cases performed; rw [only]
  | tick => cases performed; rw [tickTimers_dt running]; exact Nat.sub_le _ 1
  | step r =>
    rcases perform_step_cases performed with h | ⟨x, nn, rfl⟩
    · obtain ⟨-, same | ⟨x, fetch, -⟩, -⟩ := stepsNeverTickOrPressKeys s t h
      · rw [same]
      · exact absurd fetch (noLoad r x rfl)
    · exact Nat.le_refl _

/-- A sequence of numbers that never rises, and falls infinitely often until it is 0, comes to 0. -/
theorem exists_eq_zero_of_falls {f : Nat → Nat} (falls : ∀ n, ∃ m, n ≤ m ∧ f (m + 1) = f m - 1) (anti : Antitone f) :
    ∃ n, f n = 0 := by
  have below (v : Nat) : ∃ n, f n ≤ f 0 - v := by
    induction v with
    | zero => exact ⟨0, Nat.le_refl _⟩
    | succ v ih =>
      obtain ⟨n, bound⟩ := ih
      obtain ⟨m, later, fall⟩ := falls n
      have := anti later
      exact ⟨m + 1, by omega⟩
  obtain ⟨n, bound⟩ := below (f 0)
  exact ⟨n, by omega⟩

/-- Settles O56: the timer's values never rise, every tick takes one, and the ticks do not end. -/
theorem delayTimerRunsOutUnderTicks : Obligations.DelayTimerRunsOutUnderTicks := by
  intro ops trace run ticks running noReset noLoad
  have anti : Antitone fun n => (trace n).dt.toNat := antitone_nat_of_succ_le fun n =>
    perform_dt_le (running n) (run n) (noReset n) (noLoad n)
  have falls (n : Nat) : ∃ m, n ≤ m ∧ (trace (m + 1)).dt.toNat = (trace m).dt.toNat - 1 := by
    obtain ⟨m, later, tick⟩ := ticks n
    have performed := run m
    rw [tick] at performed
    exact ⟨m, later, Host.Outcome.next.inj performed ▸ tickTimers_dt (running m)⟩
  obtain ⟨n, zero⟩ := exists_eq_zero_of_falls falls anti
  exact ⟨n, fun m later => BitVec.eq_of_toNat_eq (Nat.le_zero.mp (zero ▸ anti later))⟩

end Sys2Proof.Machine
end
